-- ==== Sys2Proof/Word.lean ====
section
/-! DEFINITION. The data types of the block: a limb of W bits, a wide value of N limbs (least significant first), the
32-bit word of the command and control registers, and the number of a wide register. -/

namespace Sys2Proof

/-- A limb: one W-bit unsigned number, a natural number in [0, 2^W - 1] (R5, R12, R22). -/
abbrev Limb (W : Nat) := BitVec W

/-- A wide value: exactly N limbs, index 0 the least significant (R12, R21, R22). Every bit pattern is legal, and no
limb carries a tag or an extra bit, so the type holds nothing more. -/
abbrev Wide (W N : Nat) := Vector (Limb W) N

/-- A command word, a control register's word, or an information word: 32 bits, bit 0 least significant (R11, R60). -/
abbrev Word32 := BitVec 32

/-- The number of a wide register, `w0` to `w15`: K = 16 registers, so every 4-bit field value names one (R11, R20, R61). -/
abbrev RegNum := Fin 16

end Sys2Proof
end

