-- ==== Sys2Proof/Config.lean ====
section
/-! DEFINITION. What a build of the block fixes: the parameters W, N and SIGNED that the spec leaves open (D10 of
spec/92_eei_decisions.md, U11 of spec/93_implementation_defined.md). No value of this model is free: the spec leaves no
result undefined. -/

namespace Sys2Proof

/-- The build parameters (R5, R6, R8). W is even and at least 2, 1 ≤ N ≤ 256 (the limb port has an 8-bit limb index);
the bounds stand beside the numbers, so a build outside them cannot be written down.
`signed` is the source's SIGNED, which no command reads (R8): it is here so that this can be stated. -/
structure Config where
  /-- limb width in bits -/
  W : Nat
  /-- limb count -/
  N : Nat
  /-- the SIGNED parameter of the type -/
  signed : Bool := false
  W_even : W % 2 = 0 := by decide
  W_ge_two : 2 ≤ W := by decide
  N_pos : 1 ≤ N := by decide
  N_le : N ≤ 256 := by decide
  deriving DecidableEq, Repr

/-- B = N × W, the width of a wide value in bits (R7, `bit_size`). -/
abbrev Config.B (c : Config) : Nat := c.N * c.W

/-- The build that the reset state of this model has: W = 32, N = 4, unsigned, the configuration of the spec's test
vectors. DESIGN CHOICE (log entry 1): the spec leaves W, N and SIGNED to the model's argument, and `State` carries them,
so that every statement over states is a statement over every build. -/
def Config.reference : Config := { W := 32, N := 4 }

theorem Config.W_pos (c : Config) : 0 < c.W := Nat.lt_of_lt_of_le (by decide) c.W_ge_two

theorem Config.B_pos (c : Config) : 0 < c.B := Nat.mul_pos c.N_pos c.W_pos

end Sys2Proof
end

