-- ==== Sys2Proof/Syntax.lean ====
section
/-! DEFINITION. The seventeen commands of WIE-CORE version 1, one constructor for each row of spec/opcode_table.json. -/

namespace Sys2Proof

/-- A command with its fields, in the order of the assembler syntax (R68): destination first, then sources. An immediate
keeps the width of its field and is read as an unsigned number (R63). -/
inductive Instr where
  /-- `LI wd, imm16`: load an immediate seed (R81, format L) -/
  | li (rd : RegNum) (imm16 : BitVec 16)
  /-- `MOV wd, wa`: copy (R82, format U) -/
  | mov (rd ra : RegNum)
  /-- `BITS wd, wa`: bit scan (R93, format U) -/
  | bits (rd ra : RegNum)
  /-- `SHL wd, wa, wb`: left shift by a register count (R109, format R) -/
  | shl (rd ra rb : RegNum)
  /-- `SHR wd, wa, wb`: logical right shift by a register count (R110, format R) -/
  | shr (rd ra rb : RegNum)
  /-- `SHLI wd, wa, imm12`: left shift by an immediate count (R111, format I) -/
  | shli (rd ra : RegNum) (imm12 : BitVec 12)
  /-- `SHRI wd, wa, imm12`: logical right shift by an immediate count (R112, format I) -/
  | shri (rd ra : RegNum) (imm12 : BitVec 12)
  /-- `ADD wd, wa, wb` (R129, format R) -/
  | add (rd ra rb : RegNum)
  /-- `SUB wd, wa, wb` (R130, format R) -/
  | sub (rd ra rb : RegNum)
  /-- `NEG wd, wa`: two's-complement negate (R131, format U) -/
  | neg (rd ra : RegNum)
  /-- `NOT wd, wa`: bitwise invert (R132, format U) -/
  | not (rd ra : RegNum)
  /-- `INC wd, wa` (R133, format U) -/
  | inc (rd ra : RegNum)
  /-- `DEC wd, wa` (R134, format U) -/
  | dec (rd ra : RegNum)
  /-- `MUL wd, wa, wb` (R148, format R) -/
  | mul (rd ra rb : RegNum)
  /-- `DIV wd, wa, wb`: quotient (R163, format R) -/
  | div (rd ra rb : RegNum)
  /-- `MOD wd, wa, wb`: remainder (R164, format R) -/
  | mod (rd ra rb : RegNum)
  /-- `DIVMOD wq, wr, wa, wb`: quotient to `rd`, remainder to `rr` (R165, format Q) -/
  | divmod (rd rr ra rb : RegNum)
  deriving DecidableEq, Repr

/-- The row of spec/opcode_table.json a command belongs to (R64). -/
def Instr.mnemonic : Instr → String
  | .li _ _ => "LI"
  | .mov _ _ => "MOV"
  | .bits _ _ => "BITS"
  | .shl _ _ _ => "SHL"
  | .shr _ _ _ => "SHR"
  | .shli _ _ _ => "SHLI"
  | .shri _ _ _ => "SHRI"
  | .add _ _ _ => "ADD"
  | .sub _ _ _ => "SUB"
  | .neg _ _ => "NEG"
  | .not _ _ => "NOT"
  | .inc _ _ => "INC"
  | .dec _ _ => "DEC"
  | .mul _ _ _ => "MUL"
  | .div _ _ _ => "DIV"
  | .mod _ _ _ => "MOD"
  | .divmod _ _ _ _ => "DIVMOD"

/-- The registers a command writes when it ends with OKAY (R61, R64): `rd`, and `rr` too for DIVMOD. -/
def Instr.dests : Instr → List RegNum
  | .li rd _ => [rd]
  | .mov rd _ => [rd]
  | .bits rd _ => [rd]
  | .shl rd _ _ => [rd]
  | .shr rd _ _ => [rd]
  | .shli rd _ _ => [rd]
  | .shri rd _ _ => [rd]
  | .add rd _ _ => [rd]
  | .sub rd _ _ => [rd]
  | .neg rd _ => [rd]
  | .not rd _ => [rd]
  | .inc rd _ => [rd]
  | .dec rd _ => [rd]
  | .mul rd _ _ => [rd]
  | .div rd _ _ => [rd]
  | .mod rd _ _ => [rd]
  | .divmod rd rr _ _ => [rd, rr]

end Sys2Proof
end

