-- ==== Sys2Proof/Machine/State.lean ====
section
/-! DEFINITION. The state of the block and of its one host: the sixteen wide registers, the error record (STATUS and
EINFO), the build parameters, the host's transactions still to come and the reply to the latest one. There is no program
counter (R24), no flag (R25), no byte memory (R32, R41) and no mode (R202). -/

namespace Sys2Proof.Machine

/-- The response of a transaction (R13, R17). -/
inductive Resp where
  | okay
  | error
  deriving DecidableEq, Repr

/-- One host action, one step of the model (R17). Operand ranges are those of the ports (R40): r has 4 bits, i 8 bits,
limb data W bits, n 2 bits, control data 32 bits. A command is issued as `ctlWrite 2 C` (R178). -/
inductive Transaction (W : Nat) where
  /-- `LimbWrite(r, i, v)` (R43) -/
  | limbWrite (r : RegNum) (i : BitVec 8) (v : Limb W)
  /-- `LimbRead(r, i)` (R42) -/
  | limbRead (r : RegNum) (i : BitVec 8)
  /-- `CtlWrite(n, v)` (R175, R177 to R181) -/
  | ctlWrite (n : BitVec 2) (v : Word32)
  /-- `CtlRead(n)` (R175, R176, R180, R181) -/
  | ctlRead (n : BitVec 2)
  /-- the reset input, between transactions (R210, R211) -/
  | reset
  deriving DecidableEq, Repr

/-- The data a read returns: W bits on the limb port, 32 bits on the control port (R17, R40). -/
inductive PortData (W : Nat) where
  | limb (v : Limb W)
  | control (v : Word32)
  deriving DecidableEq, Repr

/-- What a transaction returns to the host: its response, and data if it is a read (R17). -/
structure Reply (W : Nat) where
  resp : Resp
  data : Option (PortData W)
  deriving DecidableEq, Repr

/-- Reasons a step may stop the machine with a fault: none. Every transaction ends with OKAY or with the error entry of
R196, and there is no state in which the block stops accepting transactions (R17, R200). -/
inductive Fault where
  deriving DecidableEq, Repr

/-- Reasons a step may be refused. -/
inductive Refusal where
  /-- a command without a meaning yet, raised by its arm of `exec` only. Safe: the model stops where the block goes on.
  No arm raises it: every command has its meaning. -/
  | notModelled (mnemonic : String)
  deriving DecidableEq, Repr

/-- The state. `regs`, `err`, `cause`, `einfo` are the block's registers (R20, R26, R27); `cfg` holds the build parameters,
which no step changes (R6); `script` and `reply` are the host's side of the ports (R16, R17; log entries 2 and 3). -/
structure State where
  /-- the build parameters W, N, SIGNED -/
  cfg : Config
  /-- `w0` .. `w15`, each N limbs of W bits (R20, R21) -/
  regs : Vector (Wide cfg.W cfg.N) 16
  /-- STATUS bit 0, ERR (R26) -/
  err : Bool
  /-- STATUS bits 7:4, CAUSE (R26, R191) -/
  cause : BitVec 4
  /-- EINFO, control register 1 (R27) -/
  einfo : Word32
  /-- the host's transactions not yet performed, the next one first (model's own; R16, R68) -/
  script : List (Transaction cfg.W)
  /-- the reply to the latest transaction; none after reset (model's own; R17) -/
  reply : Option (Reply cfg.W)
  deriving DecidableEq, Repr

/-- The reset state of a build (R30): every limb of every wide register 0, STATUS 0, EINFO 0, the block idle. -/
def State.resetOf (cfg : Config) : State where
  cfg := cfg
  regs := Vector.replicate 16 (Vector.replicate cfg.N 0)
  err := false
  cause := 0
  einfo := 0
  script := []
  reply := none

/-- The machine right after reset (R30, R210), for the reference build (log entry 1), with no transaction issued yet. -/
def State.reset : State := State.resetOf Config.reference

end Sys2Proof.Machine
end

