-- ==== Sys2Proof/Machine/Value.lean ====
section
/-! DEFINITION. Wide values and the value rule of every operation of the block: what each unit computes, as the spec gives
it on numbers (R12, R14, R81, R91, R95, R102, R103, R107, R121, R124, R126 to R128, R141, R156). The limb-by-limb units that
compute the same values are in Machine/Datapath.lean. -/

namespace Sys2Proof.Machine

variable {W N : Nat}

/-- The number that a list of limbs holds, least significant limb first. -/
def limbsVal : List (Limb W) → Nat
  | [] => 0
  | a :: l => a.toNat + 2 ^ W * limbsVal l

/-- `val(x)`: the sum of x[i] × 2^(W × i) (R12). -/
def val (x : Wide W N) : Nat := limbsVal x.toList

/-- `wide(v)`: the wide value of v mod 2^B, with limb i = floor((v mod 2^B) / 2^(W × i)) mod 2^W (R12). -/
def wide (v : Int) : Wide W N :=
  Vector.ofFn fun i : Fin N => BitVec.ofNat W ((v % (2 ^ (N * W) : Nat)).toNat / 2 ^ (W * i.val))

/-- `ZERO` (R14). -/
def wZero : Wide W N := wide 0

/-- `ONE` (R14). -/
def wOne : Wide W N := wide 1

/-- Limb i of x (R12); 0 outside the value, where no rule reads it. -/
def limbAt (x : Wide W N) (i : Nat) : Limb W := if h : i < N then x[i] else 0

/-- Bit k of x: bit k mod W of limb floor(k / W) (R12). -/
def bitAt (x : Wide W N) (k : Nat) : Bool := (limbAt x (k / W)).getLsbD (k % W)

/-- `sval(x)`, the signed reading: val(x) when bit B-1 is 0, val(x) - 2^B when it is 1 (R9). No command uses it. -/
def sval (x : Wide W N) : Int := if bitAt x (N * W - 1) then (val x : Int) - 2 ^ (N * W) else val x

/-- `x AND y`, limb by limb (R14). -/
def wAnd (x y : Wide W N) : Wide W N := Vector.ofFn fun i : Fin N => limbAt x i &&& limbAt y i

/-- `x OR y`, limb by limb (R14). -/
def wOr (x y : Wide W N) : Wide W N := Vector.ofFn fun i : Fin N => limbAt x i ||| limbAt y i

/-- `NOTW(x)`, limb by limb (R14, R127). -/
def notw (x : Wide W N) : Wide W N := Vector.ofFn fun i : Fin N => ~~~ limbAt x i

/-- `equ(x, y)`: every limb is equal (R95). -/
def equ (x y : Wide W N) : Bool := decide (x = y)

/-- `ltu(x, y)`, the unsigned ordering (R95). -/
def ltu (x y : Wide W N) : Bool := decide (val x < val y)

/-- `geu(x, y)` (R95). -/
def geu (x y : Wide W N) : Bool := !ltu x y

/-- `msb(x)`: the index of the highest set bit; 0 for a zero value, by the spec's convention (R90, R91, U2). -/
def msb (x : Wide W N) : Nat := if val x = 0 then 0 else Nat.log2 (val x)

/-- `shl(x, s)`: logical left shift; ZERO when s ≥ B (R101, R102, R107). -/
def shl (x : Wide W N) (s : Nat) : Wide W N := if s < N * W then wide (val x * 2 ^ s : Nat) else wZero

/-- `shr(x, s)`: logical right shift; ZERO when s ≥ B (R101, R103, R107). -/
def shr (x : Wide W N) (s : Nat) : Wide W N := if s < N * W then wide (val x / 2 ^ s : Nat) else wZero

/-- `add(x, y)`, modulo 2^B; the carry out is discarded (R121, R123). -/
def add (x y : Wide W N) : Wide W N := wide ((val x : Int) + val y)

/-- `sub(x, y)`, modulo 2^B; the borrow out is discarded (R124, R125). -/
def sub (x y : Wide W N) : Wide W N := wide ((val x : Int) - val y)

/-- `neg(x) = add(NOTW(x), ONE)` (R126). -/
def neg (x : Wide W N) : Wide W N := add (notw x) wOne

/-- `inc(x) = add(x, ONE)` (R128). -/
def inc (x : Wide W N) : Wide W N := add x wOne

/-- `dec(x) = sub(x, ONE)` (R128). -/
def dec (x : Wide W N) : Wide W N := sub x wOne

/-- `mul(x, y)`: the low B bits of the product (R140, R141). -/
def mul (x y : Wide W N) : Wide W N := wide ((val x : Int) * val y)

/-- `divmod(x, y)`: quotient and remainder of the unsigned values; no value for a zero divisor (R156, R157, R162). -/
def divmod (x y : Wide W N) : Option (Wide W N × Wide W N) :=
  if equ y wZero then none
  else some (wide (val x / val y : Nat), wide (val x % val y : Nat))

end Sys2Proof.Machine
end

