-- ==== Sys2Proof/Machine/Ops.lean ====
section
/-! DEFINITION. The named operations over the state: registers and limbs, the STATUS word, the responses, the error entry
of R196 and the acknowledgement of R177 (the block's return from an error, R199). -/

namespace Sys2Proof.Machine

/-- `w[r]` (R13, R23). -/
def State.reg (s : State) (r : RegNum) : Wide s.cfg.W s.cfg.N := s.regs[r.val]

/-- `w[r] <- v`, all N limbs (R13, R23). -/
def State.setReg (s : State) (r : RegNum) (v : Wide s.cfg.W s.cfg.N) : State :=
  { s with regs := s.regs.set r.val v }

/-- The number a wide register holds, val(w[r]) (R12). -/
def State.regVal (s : State) (r : RegNum) : Nat := val (s.reg r)

/-- The number limb i of register r holds, w[r][i] (R13, R41). -/
def State.limbVal (s : State) (r : RegNum) (i : Nat) : Nat := (limbAt (s.reg r) i).toNat

/-- x with limb i replaced by v, the other N-1 limbs unchanged (R43). -/
def setLimb {W N : Nat} (x : Wide W N) (i : Nat) (v : Limb W) : Wide W N := x.setIfInBounds i v

/-- The STATUS word: ERR in bit 0, CAUSE in bits 7:4, every reserved bit 0 (R26, R176). -/
def statusWord (err : Bool) (cause : BitVec 4) : Word32 := BitVec.ofNat 32 (cause.toNat * 16 + err.toNat)

/-- STATUS, control register 0 (R26). -/
def State.status (s : State) : Word32 := statusWord s.err s.cause

/-- The errors of R191. -/
inductive Cause where
  | divZero
  | illegalCmd
  | badAccess
  deriving DecidableEq, Repr

/-- The cause codes of R191; 4 to 15 are never produced. -/
def causeCode : Cause → BitVec 4
  | .divZero => 1
  | .illegalCmd => 2
  | .badAccess => 3

/-- The two ports (R40). -/
inductive Port where
  | limb
  | control
  deriving DecidableEq, Repr

/-- The data 0 that a failing read returns on a port (R194, R196). -/
def zeroData (W : Nat) : Port → PortData W
  | .limb => .limb 0
  | .control => .control 0

/-- The PORT bit of the access word (R195). -/
def portBit : Port → Nat
  | .limb => 0
  | .control => 1

/-- The access word of a BAD_ACCESS error: PORT in bit 31, WR in bit 30, ADDR in bits 11:0, the rest 0 (R195). -/
def accessWord (p : Port) (write : Bool) (addr : BitVec 12) : Word32 :=
  BitVec.ofNat 32 (portBit p * 2 ^ 31 + write.toNat * 2 ^ 30 + addr.toNat)

/-- The limb port's address LA = r × 256 + i (R40, R46). -/
def limbAddr (r : RegNum) (i : BitVec 8) : BitVec 12 := BitVec.ofNat 12 (r.val * 256 + i.toNat)

/-- The transaction ends with response OKAY, and data if it is a read (R17). -/
def State.okay (s : State) (data : Option (PortData s.cfg.W)) : State :=
  { s with reply := some ⟨.okay, data⟩ }

/-- `raise Error(cause, info)`, the error entry of R196: ERR, CAUSE and EINFO are written, the response is ERROR, the data
of a read is 0, and nothing else changes. `read` names the port if the failing transaction is a read. -/
def State.raise (s : State) (c : Cause) (info : Word32) (read : Option Port) : State :=
  { s with
    err := true
    cause := causeCode c
    einfo := info
    reply := some ⟨.error, read.map (zeroData s.cfg.W)⟩ }

/-- The acknowledgement: ERR, CAUSE and EINFO cleared (R177, R199). -/
def State.clearErrors (s : State) : State := { s with err := false, cause := 0, einfo := 0 }

/-- The end of a command that succeeds with one result: the destination written in full, response OKAY (R80, R178). -/
def State.commit (s : State) (rd : RegNum) (v : Wide s.cfg.W s.cfg.N) : State := (s.setReg rd v).okay none

end Sys2Proof.Machine
end

