-- ==== Sys2Proof/Machine/Operands.lean ====
section
/-! DEFINITION. The operand forms of the commands (R61, R63, R108): a wide register as a value (`State.reg`), a wide
register as a shift count, an immediate shift count, and the immediate seed. -/

namespace Sys2Proof.Machine

/-- The shift count of SHL and SHR: the whole content of register rb, as an unsigned number (R108, D11). -/
def State.shiftCount (s : State) (rb : RegNum) : Nat := val (s.reg rb)

/-- The shift count of SHLI and SHRI: C[11:0] as a natural number, no sign and no scaling (R63). -/
def immCount (imm12 : BitVec 12) : Nat := imm12.toNat

/-- The seed of LI: C[15:0] as a natural number, zero-extended to B bits (R63, R81). -/
def immSeed {W N : Nat} (imm16 : BitVec 16) : Wide W N := wide (imm16.toNat : Int)

end Sys2Proof.Machine
end

