-- ==== Sys2Proof/Machine/AddSub.lean ====
section
/-! DEFINITION. The add/subtract commands ADD, SUB, NEG, NOT, INC and DEC (spec/43_addsub.md). None raises an error and none
writes a flag (R120, R25). -/

namespace Sys2Proof.Machine

/-- `ADD wd, wa, wb`: w[rd] <- add(w[ra], w[rb]) (R129). -/
def execAdd (rd ra rb : RegNum) (s : State) : Host.Outcome State Fault Refusal :=
  .next (s.commit rd (add (s.reg ra) (s.reg rb)))

/-- `SUB wd, wa, wb`: w[rd] <- sub(w[ra], w[rb]) (R130). -/
def execSub (rd ra rb : RegNum) (s : State) : Host.Outcome State Fault Refusal :=
  .next (s.commit rd (sub (s.reg ra) (s.reg rb)))

/-- `NEG wd, wa`: w[rd] <- add(NOTW(w[ra]), ONE) (R131). -/
def execNeg (rd ra : RegNum) (s : State) : Host.Outcome State Fault Refusal :=
  .next (s.commit rd (neg (s.reg ra)))

/-- `NOT wd, wa`: w[rd] <- NOTW(w[ra]) (R132). -/
def execNot (rd ra : RegNum) (s : State) : Host.Outcome State Fault Refusal :=
  .next (s.commit rd (notw (s.reg ra)))

/-- `INC wd, wa`: w[rd] <- add(w[ra], ONE) (R133). -/
def execInc (rd ra : RegNum) (s : State) : Host.Outcome State Fault Refusal :=
  .next (s.commit rd (inc (s.reg ra)))

/-- `DEC wd, wa`: w[rd] <- sub(w[ra], ONE) (R134). -/
def execDec (rd ra : RegNum) (s : State) : Host.Outcome State Fault Refusal :=
  .next (s.commit rd (dec (s.reg ra)))

end Sys2Proof.Machine
end

