-- ==== Sys2Proof/Machine/BitScan.lean ====
section
/-! DEFINITION. The bit-scan command BITS (spec/41_bitscan_compare.md). -/

namespace Sys2Proof.Machine

/-- `BITS wd, wa`: w[rd] <- wide(msb(w[ra])) (R93). -/
def execBits (rd ra : RegNum) (s : State) : Host.Outcome State Fault Refusal :=
  .next (s.commit rd (wide (msb (s.reg ra) : Int)))

end Sys2Proof.Machine
end

