-- ==== Sys2Proof/WellFormed.lean ====
section
/-! DEFINITION. Which commands have a word. The types of `Instr` bound every field; the one relation between fields is
that DIVMOD's two destinations differ (R65 (c), R165). -/

namespace Sys2Proof

/-- True exactly when the command has an encoding of its own: always, but for a DIVMOD with rd = rr. -/
def Instr.wellFormed : Instr → Bool
  | .li _ _ => true
  | .mov _ _ => true
  | .bits _ _ => true
  | .shl _ _ _ => true
  | .shr _ _ _ => true
  | .shli _ _ _ => true
  | .shri _ _ _ => true
  | .add _ _ _ => true
  | .sub _ _ _ => true
  | .neg _ _ => true
  | .not _ _ => true
  | .inc _ _ => true
  | .dec _ _ => true
  | .mul _ _ _ => true
  | .div _ _ _ => true
  | .mod _ _ _ => true
  | .divmod rd rr _ _ => decide (rd ≠ rr)

end Sys2Proof
end

