-- ==== Sys2Proof/Decode.lean ====
section
/-! DEFINITION. Decoding and encoding of command words (R60 to R67): a total function from 32-bit words to a command or a
named reason of illegality, then the encoder of R62's formula, then the opcode table of R64 as data. -/

namespace Sys2Proof

/-- `C[hi:lo]` as an unsigned number (R13). -/
def field (c : Word32) (hi lo : Nat) : Nat := c.toNat / 2 ^ lo % 2 ^ (hi + 1 - lo)

/-- `op`, C[31:24] (R61). -/
def opField (c : Word32) : Nat := field c 31 24

/-- `rd`, C[23:20] (R61). -/
def rdField (c : Word32) : RegNum := Fin.ofNat 16 (field c 23 20)

/-- `ra`, C[19:16] (R61). -/
def raField (c : Word32) : RegNum := Fin.ofNat 16 (field c 19 16)

/-- `rb`, C[15:12] (R61). -/
def rbField (c : Word32) : RegNum := Fin.ofNat 16 (field c 15 12)

/-- `rr`, C[11:8] (R61). -/
def rrField (c : Word32) : RegNum := Fin.ofNat 16 (field c 11 8)

/-- `imm12`, C[11:0] (R61, R63). -/
def imm12Field (c : Word32) : BitVec 12 := BitVec.ofNat 12 (field c 11 0)

/-- `imm16`, C[15:0] (R61, R63). -/
def imm16Field (c : Word32) : BitVec 16 := BitVec.ofNat 16 (field c 15 0)

/-- Why a word is illegal (R65): the clauses (a), (b) and (c), tested in this order. -/
inductive Illegal where
  /-- (a) C[31:24] is none of the seventeen opcodes -/
  | unassignedOpcode
  /-- (b) a bit that the command's format marks 0 is 1 -/
  | mustBeZero
  /-- (c) DIVMOD with rd = rr -/
  | sameDestination
  deriving DecidableEq, Repr

/-- Format R (R62): three registers, C[11:0] zero. -/
def decodeR (c : Word32) (mk : RegNum → RegNum → RegNum → Instr) : Except Illegal Instr :=
  if field c 11 0 = 0 then .ok (mk (rdField c) (raField c) (rbField c)) else .error .mustBeZero

/-- Format U (R62): two registers, C[15:0] zero. -/
def decodeU (c : Word32) (mk : RegNum → RegNum → Instr) : Except Illegal Instr :=
  if field c 15 0 = 0 then .ok (mk (rdField c) (raField c)) else .error .mustBeZero

/-- Format I (R62): two registers and a 12-bit count, C[15:12] zero. -/
def decodeI (c : Word32) (mk : RegNum → RegNum → BitVec 12 → Instr) : Except Illegal Instr :=
  if field c 15 12 = 0 then .ok (mk (rdField c) (raField c) (imm12Field c)) else .error .mustBeZero

/-- Format L (R62): one register and a 16-bit seed, C[19:16] zero. -/
def decodeL (c : Word32) (mk : RegNum → BitVec 16 → Instr) : Except Illegal Instr :=
  if field c 19 16 = 0 then .ok (mk (rdField c) (imm16Field c)) else .error .mustBeZero

/-- Format Q (R62, R65 (c)): two destinations that differ and two sources, C[7:0] zero. -/
def decodeQ (c : Word32) (mk : RegNum → RegNum → RegNum → RegNum → Instr) : Except Illegal Instr :=
  if field c 7 0 = 0 then
    if rdField c = rrField c then .error .sameDestination
    else .ok (mk (rdField c) (rrField c) (raField c) (rbField c))
  else .error .mustBeZero

/-- Decoding (R64, R65): every word is one of the seventeen commands with its fields, or illegal. -/
def decode (c : Word32) : Except Illegal Instr :=
  match opField c with
  | 0x01 => decodeL c .li
  | 0x02 => decodeU c .mov
  | 0x10 => decodeU c .bits
  | 0x20 => decodeR c .shl
  | 0x21 => decodeR c .shr
  | 0x22 => decodeI c .shli
  | 0x23 => decodeI c .shri
  | 0x30 => decodeR c .add
  | 0x31 => decodeR c .sub
  | 0x32 => decodeU c .neg
  | 0x33 => decodeU c .not
  | 0x34 => decodeU c .inc
  | 0x35 => decodeU c .dec
  | 0x40 => decodeR c .mul
  | 0x50 => decodeR c .div
  | 0x51 => decodeR c .mod
  | 0x52 => decodeQ c .divmod
  | _ => .error .unassignedOpcode

/-- R62's formula: op × 2^24 + rd × 2^20 + ra × 2^16 + rb × 2^12 + low, a field the format lacks being 0. -/
def packWord (op : Nat) (rd ra rb : RegNum) (low : Nat) : Nat :=
  op * 2 ^ 24 + rd.val * 2 ^ 20 + ra.val * 2 ^ 16 + rb.val * 2 ^ 12 + low

/-- The word of a command, as a number (R62, R64). -/
def encodeNat : Instr → Nat
  | .li rd imm16 => packWord 0x01 rd 0 0 imm16.toNat
  | .mov rd ra => packWord 0x02 rd ra 0 0
  | .bits rd ra => packWord 0x10 rd ra 0 0
  | .shl rd ra rb => packWord 0x20 rd ra rb 0
  | .shr rd ra rb => packWord 0x21 rd ra rb 0
  | .shli rd ra imm12 => packWord 0x22 rd ra 0 imm12.toNat
  | .shri rd ra imm12 => packWord 0x23 rd ra 0 imm12.toNat
  | .add rd ra rb => packWord 0x30 rd ra rb 0
  | .sub rd ra rb => packWord 0x31 rd ra rb 0
  | .neg rd ra => packWord 0x32 rd ra 0 0
  | .not rd ra => packWord 0x33 rd ra 0 0
  | .inc rd ra => packWord 0x34 rd ra 0 0
  | .dec rd ra => packWord 0x35 rd ra 0 0
  | .mul rd ra rb => packWord 0x40 rd ra rb 0
  | .div rd ra rb => packWord 0x50 rd ra rb 0
  | .mod rd ra rb => packWord 0x51 rd ra rb 0
  | .divmod rd rr ra rb => packWord 0x52 rd ra rb (rr.val * 2 ^ 8)

/-- The word of a command (R62). For an ill-formed DIVMOD (rd = rr) it is the word that R65 (c) makes illegal. -/
def encode (i : Instr) : Word32 := BitVec.ofNat 32 (encodeNat i)

/-- One row of R64's table: a word belongs to the row when C AND mask = match. -/
structure OpcodeRow where
  mnemonic : String
  pattern : Word32
  mask : Word32
  deriving DecidableEq, Repr

/-- The opcode map of R64 (columns Mnemonic, match, mask). -/
def opcodeTable : List OpcodeRow := [
  ⟨"LI", 0x01000000, 0xFF0F0000⟩, ⟨"MOV", 0x02000000, 0xFF00FFFF⟩, ⟨"BITS", 0x10000000, 0xFF00FFFF⟩,
  ⟨"SHL", 0x20000000, 0xFF000FFF⟩, ⟨"SHR", 0x21000000, 0xFF000FFF⟩, ⟨"SHLI", 0x22000000, 0xFF00F000⟩,
  ⟨"SHRI", 0x23000000, 0xFF00F000⟩, ⟨"ADD", 0x30000000, 0xFF000FFF⟩, ⟨"SUB", 0x31000000, 0xFF000FFF⟩,
  ⟨"NEG", 0x32000000, 0xFF00FFFF⟩, ⟨"NOT", 0x33000000, 0xFF00FFFF⟩, ⟨"INC", 0x34000000, 0xFF00FFFF⟩,
  ⟨"DEC", 0x35000000, 0xFF00FFFF⟩, ⟨"MUL", 0x40000000, 0xFF000FFF⟩, ⟨"DIV", 0x50000000, 0xFF000FFF⟩,
  ⟨"MOD", 0x51000000, 0xFF000FFF⟩, ⟨"DIVMOD", 0x52000000, 0xFF0000FF⟩]

/-- The command word that a row's bits stand for: the low `nbits` bits of `w`, every bit above them 0. A command word
travels as one 32-bit number, data bit k being bit k of the word, so no byte order enters (R41, R60, D5). -/
def tableWord (nbits w : Nat) : Word32 := BitVec.ofNat 32 (w % 2 ^ nbits)

/-- What the decoder reads from the word `tableWord nbits w`; none where it is illegal. -/
def decodeTableWord (nbits w : Nat) : Option Instr :=
  match decode (tableWord nbits w) with
  | .ok i => some i
  | .error _ => none

end Sys2Proof
end

