-- ==== Sys2Proof/Machine/Divide.lean ====
section
/-! DEFINITION. The divide commands DIV, MOD and DIVMOD (spec/45_divide.md). A zero divisor takes the error entry DIVZERO
with EINFO = the command word; no wide register is then written (R157, R167, R192). The word comes from the encoder: a word
that decodes to a command is the encoding of that command (log entry 5). -/

namespace Sys2Proof.Machine

/-- What DIV, MOD and DIVMOD share (R157, R163 to R165): the zero-divisor test first, then the pair of R156, handed to
`write`; `c` is the command word. -/
def State.division (s : State) (c : Word32) (ra rb : RegNum)
    (write : Wide s.cfg.W s.cfg.N → Wide s.cfg.W s.cfg.N → State) : State :=
  match divmod (s.reg ra) (s.reg rb) with
  | none => s.raise .divZero c none
  | some (q, r) => write q r

/-- `DIV wd, wa, wb`: w[rd] <- q (R163). -/
def execDiv (rd ra rb : RegNum) (s : State) : Host.Outcome State Fault Refusal :=
  .next (s.division (encode (.div rd ra rb)) ra rb fun q _ => s.commit rd q)

/-- `MOD wd, wa, wb`: w[rd] <- r (R164). -/
def execMod (rd ra rb : RegNum) (s : State) : Host.Outcome State Fault Refusal :=
  .next (s.division (encode (.mod rd ra rb)) ra rb fun _ r => s.commit rd r)

/-- `DIVMOD wq, wr, wa, wb`: w[rd] <- q; w[rr] <- r, the sources read before either write (R165, R221). With rd = rr it
raises ILLEGAL_CMD before the divisor is looked at (R165, R198); no word decodes to that form (R65 (c), log entry 6). -/
def execDivmod (rd rr ra rb : RegNum) (s : State) : Host.Outcome State Fault Refusal :=
  .next (if rd = rr then s.raise .illegalCmd (encode (.divmod rd rr ra rb)) none
    else s.division (encode (.divmod rd rr ra rb)) ra rb fun q r => (s.setReg rd q).commit rr r)

end Sys2Proof.Machine
end

