-- ==== Sys2Proof/Machine/Multiply.lean ====
section
/-! DEFINITION. The multiply command MUL (spec/44_multiply.md). -/

namespace Sys2Proof.Machine

/-- `MUL wd, wa, wb`: w[rd] <- mul(w[ra], w[rb]), the low B bits of the product (R148). -/
def execMul (rd ra rb : RegNum) (s : State) : Host.Outcome State Fault Refusal :=
  .next (s.commit rd (mul (s.reg ra) (s.reg rb)))

end Sys2Proof.Machine
end

