-- ==== Sys2Proof/Machine/Shift.lean ====
section
/-! DEFINITION. The shift commands SHL, SHR, SHLI and SHRI (spec/42_shift.md). -/

namespace Sys2Proof.Machine

/-- `SHL wd, wa, wb`: left shift by the number in w[rb]; ZERO from B on (R109). -/
def execShl (rd ra rb : RegNum) (s : State) : Host.Outcome State Fault Refusal :=
  .next (s.commit rd (shl (s.reg ra) (s.shiftCount rb)))

/-- `SHR wd, wa, wb`: logical right shift by the number in w[rb]; ZERO from B on (R110). -/
def execShr (rd ra rb : RegNum) (s : State) : Host.Outcome State Fault Refusal :=
  .next (s.commit rd (shr (s.reg ra) (s.shiftCount rb)))

/-- `SHLI wd, wa, imm12`: left shift by the immediate; ZERO from B on (R111). -/
def execShli (rd ra : RegNum) (imm12 : BitVec 12) (s : State) : Host.Outcome State Fault Refusal :=
  .next (s.commit rd (shl (s.reg ra) (immCount imm12)))

/-- `SHRI wd, wa, imm12`: logical right shift by the immediate; ZERO from B on (R112). -/
def execShri (rd ra : RegNum) (imm12 : BitVec 12) (s : State) : Host.Outcome State Fault Refusal :=
  .next (s.commit rd (shr (s.reg ra) (immCount imm12)))

end Sys2Proof.Machine
end

