-- ==== Sys2Proof/Machine/Storage.lean ====
section
/-! DEFINITION. The limb storage commands LI and MOV (spec/40_storage.md). -/

namespace Sys2Proof.Machine

/-- `LI wd, imm16`: w[rd] <- wide(imm16) (R81). -/
def execLi (rd : RegNum) (imm16 : BitVec 16) (s : State) : Host.Outcome State Fault Refusal :=
  .next (s.commit rd (immSeed imm16))

/-- `MOV wd, wa`: w[rd] <- w[ra] (R82). -/
def execMov (rd ra : RegNum) (s : State) : Host.Outcome State Fault Refusal :=
  .next (s.commit rd (s.reg ra))

end Sys2Proof.Machine
end

