-- ==== Sys2Proof/Machine/Dispatch.lean ====
section
/-! DEFINITION. The execution of one command by its rule in files 40 to 45 (R178): one arm per constructor. -/

namespace Sys2Proof.Machine

def exec (i : Instr) (s : State) : Host.Outcome State Fault Refusal :=
  match i with
  | .li rd imm16 => Sys2Proof.Machine.execLi rd imm16 s
  | .mov rd ra => Sys2Proof.Machine.execMov rd ra s
  | .bits rd ra => Sys2Proof.Machine.execBits rd ra s
  | .shl rd ra rb => Sys2Proof.Machine.execShl rd ra rb s
  | .shr rd ra rb => Sys2Proof.Machine.execShr rd ra rb s
  | .shli rd ra imm12 => Sys2Proof.Machine.execShli rd ra imm12 s
  | .shri rd ra imm12 => Sys2Proof.Machine.execShri rd ra imm12 s
  | .add rd ra rb => Sys2Proof.Machine.execAdd rd ra rb s
  | .sub rd ra rb => Sys2Proof.Machine.execSub rd ra rb s
  | .neg rd ra => Sys2Proof.Machine.execNeg rd ra s
  | .not rd ra => Sys2Proof.Machine.execNot rd ra s
  | .inc rd ra => Sys2Proof.Machine.execInc rd ra s
  | .dec rd ra => Sys2Proof.Machine.execDec rd ra s
  | .mul rd ra rb => Sys2Proof.Machine.execMul rd ra rb s
  | .div rd ra rb => Sys2Proof.Machine.execDiv rd ra rb s
  | .mod rd ra rb => Sys2Proof.Machine.execMod rd ra rb s
  | .divmod rd rr ra rb => Sys2Proof.Machine.execDivmod rd rr ra rb s

end Sys2Proof.Machine
end

