-- ==== Sys2Proof/Machine/Ports.lean ====
section
/-! DEFINITION. The five transactions of R17: the limb port (R42, R43), the control port (R175 to R181) and reset (R210).
Each is atomic and is one step (R16, R45). -/

namespace Sys2Proof.Machine

/-- `LimbRead(r, i)`: limb i of register r, no state changed; BAD_ACCESS with data 0 in a hole, i ≥ N (R42, R46). -/
def State.limbRead (s : State) (r : RegNum) (i : BitVec 8) : State :=
  if i.toNat < s.cfg.N then s.okay (some (.limb (limbAt (s.reg r) i.toNat)))
  else s.raise .badAccess (accessWord .limb false (limbAddr r i)) (some .limb)

/-- `LimbWrite(r, i, v)`: w[r][i] <- v; BAD_ACCESS and no write in a hole, i ≥ N (R43, R46). -/
def State.limbWrite (s : State) (r : RegNum) (i : BitVec 8) (v : Limb s.cfg.W) : State :=
  if i.toNat < s.cfg.N then (s.setReg r (setLimb (s.reg r) i.toNat v)).okay none
  else s.raise .badAccess (accessWord .limb true (limbAddr r i)) none

/-- BAD_ACCESS on the control port (R179 to R181, R195). -/
def State.badControl (s : State) (n : BitVec 2) (write : Bool) : State :=
  s.raise .badAccess (accessWord .control write (n.zeroExtend 12)) (if write then none else some .control)

/-- `CtlRead(n)`: STATUS or EINFO, no state changed (R176); BAD_ACCESS for CMD (R180) and for n = 3 (R181). -/
def State.ctlRead (s : State) (n : BitVec 2) : State :=
  if n = 0 then s.okay (some (.control s.status))
  else if n = 1 then s.okay (some (.control s.einfo))
  else s.badControl n false

/-- `CtlWrite(0, v)`: write STATUS; v[0] = 1 clears ERR, CAUSE and EINFO, every other bit is ignored (R177). -/
def State.writeStatus (s : State) (v : Word32) : State :=
  if v.getLsbD 0 then s.clearErrors.okay none else s.okay none

/-- `CtlWrite(2, C)`: issue the command word C (R178). Decoding comes before any register is read (R198); an illegal word
raises ILLEGAL_CMD with EINFO = C (R193). C is not kept (R28). -/
def issue (s : State) (c : Word32) : Host.Outcome State Fault Refusal :=
  match decode c with
  | .ok i => exec i s
  | .error _ => .next (s.raise .illegalCmd c none)

/-- `CtlWrite(n, v)`: STATUS (R177), CMD (R178), BAD_ACCESS for EINFO (R179) and for n = 3 (R181). -/
def ctlWrite (s : State) (n : BitVec 2) (v : Word32) : Host.Outcome State Fault Refusal :=
  if n = 0 then .next (s.writeStatus v)
  else if n = 2 then issue s v
  else .next (s.badControl n true)

/-- `Reset`: the reset state of the same build, whatever the state was; the host's later transactions are the host's
(R210, R211, log entry 7). -/
def State.doReset (s : State) : State := { State.resetOf s.cfg with script := s.script }

/-- One transaction, performed completely (R16, R17). -/
def perform (s : State) : Transaction s.cfg.W → Host.Outcome State Fault Refusal
  | .limbWrite r i v => .next (s.limbWrite r i v)
  | .limbRead r i => .next (s.limbRead r i)
  | .ctlWrite n v => ctlWrite s n v
  | .ctlRead n => .next (s.ctlRead n)
  | .reset => .next s.doReset

end Sys2Proof.Machine
end

