-- ==== Sys2Proof/Machine/Step.lean ====
section
/-! DEFINITION. One step: the host's next transaction, performed completely (R16). The block does nothing until the host
issues one (R210). -/

namespace Sys2Proof.Machine

/-- The next transaction leaves the script and is performed; with none left the block stays idle, its state unchanged. -/
def step (s : State) : Host.Outcome State Fault Refusal :=
  match s.script with
  | [] => .next s
  | t :: rest => perform { s with script := rest } t

/-- The host issues the command word `tableWord nbits w` next: `CtlWrite(2, C)` in front of its script (R178, log entry 2). -/
def State.withFetchWord (s : State) (nbits w : Nat) : State :=
  { s with script := .ctlWrite 2 (tableWord nbits w) :: s.script }

end Sys2Proof.Machine
end

