-- ==== Sys2Proof/Machine/Flags.lean ====
section
/-! DEFINITION. The carry and borrow detections of one limb position (R122, R125). The block has no condition codes: no
command writes or reads a carry, borrow, overflow, zero or sign flag (R25), so these are wires inside the units and no
field of the state. -/

namespace Sys2Proof.Machine

variable {W : Nat}

/-- A carry or borrow bit as a limb. -/
def bitLimb (b : Bool) : Limb W := BitVec.ofNat W b.toNat

/-- The carry of a limb addition with result `s` and left operand `a`: the unsigned wraparound comparison s < a (R122). -/
def carryOut (s a : Limb W) : Bool := decide (s.toNat < a.toNat)

/-- The borrow of a limb subtraction with result `d` and left operand `a`: d > a (R125). -/
def borrowOut (d a : Limb W) : Bool := decide (d.toNat > a.toNat)

end Sys2Proof.Machine
end

