-- ==== Sys2Proof/Machine/Datapath.lean ====
section
/-! DEFINITION. The five datapath units and the bit scan, limb by limb, as the spec's pseudocode gives them: the comparator
(R95, R96), the scan (R92), the adder and subtractor (R122, R125), the shifter (R104 to R107), the multiplier (R142 to R146)
and the restoring divider (R157 to R160). Their working values are hidden: they exist within one command only (R33). -/

namespace Sys2Proof.Machine

variable {W N : Nat}

/-! ## Comparator -/

/-- The scan of R95 over the limbs below k, from the most significant down: the first differing limb decides. -/
def ltuBelow (x y : Wide W N) : Nat → Bool
  | 0 => false
  | k + 1 =>
    if limbAt x k ≠ limbAt y k then decide ((limbAt x k).toNat < (limbAt y k).toNat) else ltuBelow x y k

/-- `ltu(x, y)` as the comparator computes it (R95). -/
def ltuUnit (x y : Wide W N) : Bool := ltuBelow x y N

/-- `geu(x, y)` as the comparator computes it (R95). -/
def geuUnit (x y : Wide W N) : Bool := !ltuUnit x y

/-- The signed ordering of R96: the top limbs compared as signed numbers, the rest as unsigned ones. Information only: no
command and no unit uses it. -/
def ltsUnit (x y : Wide W N) : Bool :=
  if limbAt x (N - 1) ≠ limbAt y (N - 1) then (limbAt x (N - 1)).slt (limbAt y (N - 1))
  else ltuBelow x y (N - 1)

/-! ## Bit scan -/

/-- `clz_W(a)` for a ≠ 0: the zero bits above the highest set bit within W bits (R14). -/
def clz (a : Limb W) : Nat := W - 1 - Nat.log2 a.toNat

/-- `clz_W` from two encoders of half the width (R92): the high half if it is nonzero, else half the width more than the
low half. -/
def clzHalves (a : Limb W) : Nat :=
  let h := W / 2
  let high : BitVec (W / 2) := BitVec.ofNat h (a.toNat / 2 ^ h)
  let low : BitVec (W / 2) := BitVec.ofNat h (a.toNat % 2 ^ h)
  if high ≠ 0 then clz high else h + clz low

/-- The scan of R92 over the limbs below k, from the most significant down. -/
def msbBelow (x : Wide W N) : Nat → Nat
  | 0 => 0
  | k + 1 =>
    if limbAt x k ≠ 0 then N * W - 1 - clz (limbAt x k) - (N - 1 - k) * W else msbBelow x k

/-- `msb(x)` as the scan unit computes it (R92). -/
def msbUnit (x : Wide W N) : Nat := msbBelow x N

/-! ## Adder and subtractor -/

/-- `cin[i]` of R122: the carry into limb i, from the two detections of limb i - 1 combined. -/
def carryIn (l r : Wide W N) : Nat → Bool
  | 0 => false
  | i + 1 =>
    let s1 := limbAt l i + limbAt r i
    let s2 := s1 + bitLimb (carryIn l r i)
    carryOut s1 (limbAt l i) || carryOut s2 s1

/-- The adder (R122): the carry ripples through all N limbs, and `cin[N]` is discarded (R123). -/
def adder (l r : Wide W N) : Wide W N :=
  Vector.ofFn fun i : Fin N => limbAt l i + limbAt r i + bitLimb (carryIn l r i)

/-- `bin[i]` of R125: the borrow into limb i. -/
def borrowIn (l r : Wide W N) : Nat → Bool
  | 0 => false
  | i + 1 =>
    let d1 := limbAt l i - limbAt r i
    let d2 := d1 - bitLimb (borrowIn l r i)
    borrowOut d1 (limbAt l i) || borrowOut d2 d1

/-- The subtractor (R125): the borrow ripples through all N limbs, and `bin[N]` is discarded. -/
def subtractor (l r : Wide W N) : Wide W N :=
  Vector.ofFn fun i : Fin N => limbAt l i - limbAt r i - bitLimb (borrowIn l r i)

/-! ## Shifter -/

/-- `a <<w s`, for a count below W only: the limb shifter is not defined at W (R14, R106, R222, U1). -/
def limbShl (a : Limb W) (s : Fin W) : Limb W := a <<< s.val

/-- `a >>w s`, for a count below W only (R14, R106, R222, U1). -/
def limbShr (a : Limb W) (s : Fin W) : Limb W := a >>> s.val

/-- Stage 1 of R104: the whole-limb move toward the higher index, vacated limbs zero. -/
def moveUp (x : Wide W N) (q : Nat) : Wide W N :=
  Vector.ofFn fun i : Fin N => if q ≤ i.val then limbAt x (i.val - q) else 0

/-- Stage 1 of R105: the whole-limb move toward the lower index. -/
def moveDown (x : Wide W N) (q : Nat) : Wide W N :=
  Vector.ofFn fun i : Fin N => if i.val + q ≤ N - 1 then limbAt x (i.val + q) else 0

/-- Stage 2 of R104, for 1 ≤ r ≤ W - 1: each limb shifted, the bits that cross from the next lower limb OR-ed in. -/
def crossUp (t : Wide W N) (r : Nat) (h0 : r ≠ 0) (hr : r < W) : Wide W N :=
  Vector.ofFn fun i : Fin N =>
    let lower := if 1 ≤ i.val then limbAt t (i.val - 1) else 0
    limbShl (limbAt t i) ⟨r, hr⟩ ||| limbShr lower ⟨W - r, by omega⟩

/-- Stage 2 of R105, for 1 ≤ r ≤ W - 1: the bits that cross come from the next higher limb. -/
def crossDown (t : Wide W N) (r : Nat) (h0 : r ≠ 0) (hr : r < W) : Wide W N :=
  Vector.ofFn fun i : Fin N =>
    let upper := if i.val + 1 ≤ N - 1 then limbAt t (i.val + 1) else 0
    limbShr (limbAt t i) ⟨r, hr⟩ ||| limbShl upper ⟨W - r, by omega⟩

/-- The left shifter (R104), with the test on the whole amount first (R107) and the guard on remainder 0 (R106). -/
def shlUnit (hW : 0 < W) (x : Wide W N) (s : Nat) : Wide W N :=
  if s < N * W then
    if h : s % W = 0 then moveUp x (s / W)
    else crossUp (moveUp x (s / W)) (s % W) h (Nat.mod_lt s hW)
  else wZero

/-- The right shifter (R105), with the tests of R107 and R106. -/
def shrUnit (hW : 0 < W) (x : Wide W N) (s : Nat) : Wide W N :=
  if s < N * W then
    if h : s % W = 0 then moveDown x (s / W)
    else crossDown (moveDown x (s / W)) (s % W) h (Nat.mod_lt s hW)
  else wZero

/-! ## Multiplier -/

/-- h = W / 2 as a count of the limb shifters (R142). -/
def halfCount (hW : 0 < W) : Fin W := ⟨W / 2, Nat.div_lt_self hW (by decide)⟩

/-- Half-limb i of x: the low half of limb i / 2 for even i, its high half for odd i (R142). -/
def halfLimb (hW : 0 < W) (x : Wide W N) (i : Nat) : Limb W :=
  if i % 2 = 0 then limbAt x (i / 2) &&& BitVec.ofNat W (2 ^ (W / 2) - 1)
  else limbShr (limbAt x (i / 2)) (halfCount hW)

/-- `P[i][j]`, one entry of the cross-product matrix (R143); it fits one limb. -/
def crossProduct (hW : 0 < W) (a b : Wide W N) (i j : Nat) : Limb W := halfLimb hW a i * halfLimb hW b j

/-- `accadd` of R145: c is added at limb i and its carry followed upward; a carry out of limb N - 1 is discarded. The first
argument bounds the loop, which runs over the limbs i to N - 1. -/
def accAdd : Nat → Wide W N → Nat → Limb W → Wide W N
  | 0, acc, _, _ => acc
  | fuel + 1, acc, i, c =>
    if i < N then
      if c = 0 then acc
      else
        let s := limbAt acc i + c
        accAdd fuel (acc.setIfInBounds i s) (i + 1) (bitLimb (carryOut s (limbAt acc i)))
    else acc

/-- The placement of the product P[i][j] (R144) and the truncation of R146: at limb t = floor((i + j) / 2), shifted left by
half a limb when i + j is odd, where it straddles limbs t and t + 1. -/
def place (hW : 0 < W) (a b acc : Wide W N) (ij : Nat × Nat) : Wide W N :=
  let p := ij.1 + ij.2
  let t := p / 2
  let prod := crossProduct hW a b ij.1 ij.2
  if t < N then
    if p % 2 = 0 then accAdd N acc t prod
    else
      let acc1 := accAdd N acc t (limbShl prod (halfCount hW))
      if t + 1 < N then accAdd N acc1 (t + 1) (limbShr prod (halfCount hW)) else acc1
  else acc

/-- The index pairs of the matrix in the reference order of R147: i outer, j inner, both ascending. -/
def productOrder (N : Nat) : List (Nat × Nat) :=
  (List.range (2 * N)).flatMap fun i => (List.range (2 * N)).map fun j => (i, j)

/-- The accumulation of the products at the pairs of `order`, from ZERO (R145). -/
def accumulate (hW : 0 < W) (a b : Wide W N) (order : List (Nat × Nat)) : Wide W N :=
  order.foldl (place hW a b) wZero

/-- The multiplier (R142 to R147). -/
def multiplier (hW : 0 < W) (a b : Wide W N) : Wide W N := accumulate hW a b (productOrder N)

/-! ## Divider -/

/-- The working values of the divider's general case (R160): working dividend, shifted divisor, probe bit, quotient. -/
structure DivWork (W N : Nat) where
  work : Wide W N
  dv : Wide W N
  probe : Wide W N
  q : Wide W N
  deriving DecidableEq, Repr

/-- The values before the loop (R160). -/
def divStart (hW : 0 < W) (a b : Wide W N) : DivWork W N :=
  let shift := msbUnit a - msbUnit b
  { work := a, dv := shlUnit hW b shift, probe := shlUnit hW wOne shift, q := wZero }

/-- One iteration (R160): compare, conditionally subtract, shift the divisor copy and the probe bit right by one. -/
def divIter (hW : 0 < W) (d : DivWork W N) : DivWork W N :=
  let d1 := if geuUnit d.work d.dv
    then { d with q := wOr d.q d.probe, work := subtractor d.work d.dv } else d
  { d1 with dv := shrUnit hW d.dv 1, probe := shrUnit hW d.probe 1 }

/-- The loop "while the probe bit is nonzero", with a bound on its iterations (R160, R161). -/
def divLoop (hW : 0 < W) : Nat → DivWork W N → DivWork W N
  | 0, d => d
  | fuel + 1, d => if equ d.probe wZero then d else divLoop hW fuel (divIter hW d)

/-- Step 3 of R159: the divisor is an exact power of two. -/
def isPowerOfTwo (hW : 0 < W) (b : Wide W N) : Bool := equ (shlUnit hW wOne (msbUnit b)) b

/-- The divider (R157 to R160): the zero test, the short-circuit, the power-of-two shortcut, then the loop, which runs at
most B times (R161 (a)); none for a zero divisor. -/
def divider (hW : 0 < W) (a b : Wide W N) : Option (Wide W N × Wide W N) :=
  if equ b wZero then none
  else if ltuUnit a b then some (wZero, a)
  else if isPowerOfTwo hW b then some (shrUnit hW a (msbUnit b), wAnd a (subtractor b wOne))
  else
    let d := divLoop hW (N * W) (divStart hW a b)
    some (d.q, d.work)

end Sys2Proof.Machine
end

