-- ==== Sys2Proof/Machine/DatapathExec.lean ====
section
/-! DEFINITION. The same commands executed by the limb-by-limb units of Machine/Datapath.lean in place of the value rules:
the block as the spec builds it from its five units and the bit scan (R2). The spec says that the two give the same result
for every command (R113, R147, R168, U13); the obligations state it of `exec`. -/

namespace Sys2Proof.Machine

/-- The divide commands on the divider unit (R157 to R165). -/
def State.divideByUnit (s : State) (c : Word32) (ra rb : RegNum)
    (write : Wide s.cfg.W s.cfg.N → Wide s.cfg.W s.cfg.N → State) : State :=
  match divider s.cfg.W_pos (s.reg ra) (s.reg rb) with
  | none => s.raise .divZero c none
  | some (q, r) => write q r

/-- The execution of one command on the units. -/
def execOnUnits (i : Instr) (s : State) : Host.Outcome State Fault Refusal :=
  .next <| match i with
  | .li rd imm16 => s.commit rd (immSeed imm16)
  | .mov rd ra => s.commit rd (s.reg ra)
  | .bits rd ra => s.commit rd (wide (msbUnit (s.reg ra) : Int))
  | .shl rd ra rb => s.commit rd (shlUnit s.cfg.W_pos (s.reg ra) (s.shiftCount rb))
  | .shr rd ra rb => s.commit rd (shrUnit s.cfg.W_pos (s.reg ra) (s.shiftCount rb))
  | .shli rd ra imm12 => s.commit rd (shlUnit s.cfg.W_pos (s.reg ra) (immCount imm12))
  | .shri rd ra imm12 => s.commit rd (shrUnit s.cfg.W_pos (s.reg ra) (immCount imm12))
  | .add rd ra rb => s.commit rd (adder (s.reg ra) (s.reg rb))
  | .sub rd ra rb => s.commit rd (subtractor (s.reg ra) (s.reg rb))
  | .neg rd ra => s.commit rd (adder (notw (s.reg ra)) wOne)
  | .not rd ra => s.commit rd (notw (s.reg ra))
  | .inc rd ra => s.commit rd (adder (s.reg ra) wOne)
  | .dec rd ra => s.commit rd (subtractor (s.reg ra) wOne)
  | .mul rd ra rb => s.commit rd (multiplier s.cfg.W_pos (s.reg ra) (s.reg rb))
  | .div rd ra rb => s.divideByUnit (encode (.div rd ra rb)) ra rb fun q _ => s.commit rd q
  | .mod rd ra rb => s.divideByUnit (encode (.mod rd ra rb)) ra rb fun _ r => s.commit rd r
  | .divmod rd rr ra rb =>
    if rd = rr then s.raise .illegalCmd (encode (.divmod rd rr ra rb)) none
    else s.divideByUnit (encode (.divmod rd rr ra rb)) ra rb fun q r => (s.setReg rd q).commit rr r

end Sys2Proof.Machine
end

