-- ==== Sys2Proof/Safety.lean ====
section
/-! DEFINITION. The terms in which claims are stated: the invariant of the error record, what a safe run is, and the clauses
of the encoding rules. -/

namespace Sys2Proof.Machine

/-- The error record is consistent (R26, R27, R191, U9): ERR = 1 exactly when CAUSE ≠ 0, CAUSE is at most 3, and with no error
recorded EINFO is 0. It says nothing of the wide registers: every bit pattern is legal there (R22). -/
def State.errorRecordOk (s : State) : Prop :=
  (s.err = true ↔ s.cause ≠ 0) ∧ s.cause.toNat ≤ 3 ∧ (s.err = false → s.einfo = 0)

/-- A safe run of k steps: it ends in a next state with no error recorded. -/
def safeRun (k : Nat) (s : State) : Prop :=
  ∃ t : State, Host.Core.run Sys2Proof.core k s = .next t ∧ t.err = false

/-- The register whose zero value makes a command fail: the divisor of DIV, MOD and DIVMOD (R157, R192). -/
def divisorOf : Instr → Option RegNum
  | .li _ _ => none
  | .mov _ _ => none
  | .bits _ _ => none
  | .shl _ _ _ => none
  | .shr _ _ _ => none
  | .shli _ _ _ => none
  | .shri _ _ _ => none
  | .add _ _ _ => none
  | .sub _ _ _ => none
  | .neg _ _ => none
  | .not _ _ => none
  | .inc _ _ => none
  | .dec _ _ => none
  | .mul _ _ _ => none
  | .div _ _ rb => some rb
  | .mod _ _ rb => some rb
  | .divmod _ _ _ rb => some rb

end Sys2Proof.Machine

namespace Sys2Proof

/-- The seventeen opcodes (R64, R65 (a)). -/
def assignedOpcodes : List Nat :=
  [0x01, 0x02, 0x10, 0x20, 0x21, 0x22, 0x23, 0x30, 0x31, 0x32, 0x33, 0x34, 0x35, 0x40, 0x50, 0x51, 0x52]

/-- The bits that R62 marks 0 for the format of an opcode (R65 (b)): formats L, I, Q, then U, then R. -/
def mustBeZeroBits (op : Nat) : Word32 :=
  if op = 0x01 then 0x000F0000
  else if op = 0x22 ∨ op = 0x23 then 0x0000F000
  else if op = 0x52 then 0x000000FF
  else if op ∈ [0x02, 0x10, 0x32, 0x33, 0x34, 0x35] then 0x0000FFFF
  else if op ∈ [0x20, 0x21, 0x30, 0x31, 0x40, 0x50, 0x51] then 0x00000FFF
  else 0

/-- A word with this opcode is the command in format R, or illegal if C[11:0] is not zero (R61, R62). -/
def encodedInR (op : Nat) (mk : RegNum → RegNum → RegNum → Instr) : Prop :=
  ∀ c : Word32, opField c = op →
    (field c 11 0 = 0 → decode c = .ok (mk (rdField c) (raField c) (rbField c))) ∧
    (field c 11 0 ≠ 0 → decode c = .error .mustBeZero)

/-- The same for format U, with C[15:0] zero (R61, R62). -/
def encodedInU (op : Nat) (mk : RegNum → RegNum → Instr) : Prop :=
  ∀ c : Word32, opField c = op →
    (field c 15 0 = 0 → decode c = .ok (mk (rdField c) (raField c))) ∧
    (field c 15 0 ≠ 0 → decode c = .error .mustBeZero)

/-- The same for format I, with C[15:12] zero (R61, R62). -/
def encodedInI (op : Nat) (mk : RegNum → RegNum → BitVec 12 → Instr) : Prop :=
  ∀ c : Word32, opField c = op →
    (field c 15 12 = 0 → decode c = .ok (mk (rdField c) (raField c) (imm12Field c))) ∧
    (field c 15 12 ≠ 0 → decode c = .error .mustBeZero)

/-- The same for format L, with C[19:16] zero (R61, R62). -/
def encodedInL (op : Nat) (mk : RegNum → BitVec 16 → Instr) : Prop :=
  ∀ c : Word32, opField c = op →
    (field c 19 16 = 0 → decode c = .ok (mk (rdField c) (imm16Field c))) ∧
    (field c 19 16 ≠ 0 → decode c = .error .mustBeZero)

/-- The same for format Q, with C[7:0] zero and rd ≠ rr (R61, R62, R65 (c)). -/
def encodedInQ (op : Nat) (mk : RegNum → RegNum → RegNum → RegNum → Instr) : Prop :=
  ∀ c : Word32, opField c = op →
    (field c 7 0 = 0 → rdField c ≠ rrField c →
      decode c = .ok (mk (rdField c) (rrField c) (raField c) (rbField c))) ∧
    (field c 7 0 ≠ 0 ∨ rdField c = rrField c → ∃ e, decode c = .error e)

end Sys2Proof
end

