-- ==== Sys2Proof/Certificates/Slice0/Obligations.lean ====
section
/-! DEFINITION. The statements for the provers. Each holds for every build (W, N, SIGNED) of the block, since the state carries
its build parameters. A statement of a command's result is also its completion and its frame: it says that `exec` answers
the state that differs from the given one in the fields written out, and in no other. -/

open Sys2Proof Sys2Proof.Machine

/-! ## Encoding -/

/-- Words of R68's table and of section 2.7 of spec/95_test_vectors.md, one of every format and family, and illegal ones. -/
def Obligations.SampleWordsDecodeAsTheSpecLists : Prop :=
  decode 0x0140FFFF = .ok (.li 4 0xFFFF) ∧ decode 0x02710000 = .ok (.mov 7 1) ∧ decode 0x10100000 = .ok (.bits 1 0) ∧
  decode 0x22100021 = .ok (.shli 1 0 33) ∧ decode 0x30201000 = .ok (.add 2 0 1) ∧ decode 0x32330000 = .ok (.neg 3 3) ∧
  decode 0x40000000 = .ok (.mul 0 0 0) ∧ decode 0x51ABC000 = .ok (.mod 10 11 12) ∧
  decode 0x52201300 = .ok (.divmod 2 3 0 1) ∧ decode 0x00000000 = .error .unassignedOpcode ∧
  decode 0x22101021 = .error .mustBeZero ∧ decode 0x52201200 = .error .sameDestination

/-- Decode and encode agree, for every command with every operand (R62, R64, R65). -/
def Obligations.DecodeOfEncodeIsTheCommand : Prop :=
  ∀ i : Instr, i.wellFormed = true → decode (encode i) = .ok i

/-- Every legal word is the encoding of the command it decodes to, so the command determines its word (R62, R65): the word
that the divide commands record in EINFO is the word the host wrote (R195, log entry 5). -/
def Obligations.LegalWordIsTheEncodingOfItsCommand : Prop :=
  ∀ (c : Word32) (i : Instr), decode c = .ok i → encode i = c ∧ i.wellFormed = true

/-- A word selects a row of the opcode table exactly when C AND mask = match, and for DIVMOD rd ≠ rr (R64). -/
def Obligations.WordSelectsRowByMatchAndMask : Prop :=
  ∀ row ∈ opcodeTable, ∀ c : Word32,
    (∃ i, decode c = .ok i ∧ i.mnemonic = row.mnemonic) ↔
      (c &&& row.mask = row.pattern ∧ (row.mnemonic = "DIVMOD" → rdField c ≠ rrField c))

/-- R65 whole: which words are illegal, what an illegal word does, and the count of opcode values. -/
def Obligations.WordIsIllegalExactlyByTheThreeClauses : Prop :=
  (∀ c : Word32, (∃ e, decode c = .error e) ↔
    (opField c ∉ assignedOpcodes ∨ c &&& mustBeZeroBits (opField c) ≠ 0 ∨
      (opField c = 0x52 ∧ rdField c = rrField c))) ∧
  (∀ (s : State) (c : Word32) (rest : List (Transaction s.cfg.W)) (e : Illegal),
    s.script = .ctlWrite 2 c :: rest → decode c = .error e →
      step s = .next { s with script := rest, err := true, cause := 2, einfo := c, reply := some ⟨.error, none⟩ }) ∧
  assignedOpcodes.Nodup ∧ assignedOpcodes.length = 17 ∧
  ((List.range 256).filter fun op => op ∉ assignedOpcodes).length = 239

/-! ## The step -/

/-- A command word that decodes to i is run as i, in the state without the transaction (R178). -/
def Obligations.StepRunsTheDecodedCommand : Prop :=
  ∀ (s : State) (c : Word32) (rest : List (Transaction s.cfg.W)) (i : Instr),
    s.script = .ctlWrite 2 c :: rest → decode c = .ok i → step s = exec i { s with script := rest }

/-- With no transaction issued the block does nothing, for however many steps (R210). That an idle step is a step of the
model, with an empty script, is the model's choice (log entry 2). -/
def Obligations.IdleBlockStaysUnchanged : Prop :=
  ∀ (k : Nat) (s : State), s.script = [] → Host.Core.run Sys2Proof.core k s = .next s

/-! ## The commands -/

/-- R81. -/
def Obligations.LiLoadsTheZeroExtendedSeed : Prop :=
  encodedInL 0x01 .li ∧
  ∀ (s : State) (rd : RegNum) (imm16 : BitVec 16), ∃ y : Wide s.cfg.W s.cfg.N,
    exec (.li rd imm16) s = .next { s with regs := s.regs.set rd y, reply := some ⟨.okay, none⟩ } ∧
    val y = imm16.toNat % 2 ^ s.cfg.B ∧
    ∀ i, i < s.cfg.N → (limbAt y i).toNat = imm16.toNat / 2 ^ (s.cfg.W * i) % 2 ^ s.cfg.W

/-- R82. -/
def Obligations.MovCopiesEveryLimb : Prop :=
  encodedInU 0x02 .mov ∧
  ∀ (s : State) (rd ra : RegNum), ∃ y : Wide s.cfg.W s.cfg.N,
    exec (.mov rd ra) s = .next { s with regs := s.regs.set rd y, reply := some ⟨.okay, none⟩ } ∧
    ∀ i, i < s.cfg.N → limbAt y i = limbAt (s.reg ra) i

/-- R93 with R91: the index of the highest set bit, 0 for a zero value. -/
def Obligations.BitsWritesTheIndexOfTheHighestSetBit : Prop :=
  encodedInU 0x10 .bits ∧
  ∀ (s : State) (rd ra : RegNum), ∃ y : Wide s.cfg.W s.cfg.N,
    exec (.bits rd ra) s = .next { s with regs := s.regs.set rd y, reply := some ⟨.okay, none⟩ } ∧
    val y < s.cfg.B ∧ (s.regVal ra = 0 → val y = 0) ∧
    (s.regVal ra ≠ 0 → bitAt (s.reg ra) (val y) = true ∧ ∀ k, val y < k → bitAt (s.reg ra) k = false)

/-- R109 with R102, R107 and R108: the value, and every bit of it. -/
def Obligations.ShlShiftsLeftByTheWholeRegister : Prop :=
  encodedInR 0x20 .shl ∧
  ∀ (s : State) (rd ra rb : RegNum), ∃ y : Wide s.cfg.W s.cfg.N,
    exec (.shl rd ra rb) s = .next { s with regs := s.regs.set rd y, reply := some ⟨.okay, none⟩ } ∧
    (s.cfg.B ≤ s.regVal rb → val y = 0) ∧
    (s.regVal rb < s.cfg.B → val y = s.regVal ra * 2 ^ s.regVal rb % 2 ^ s.cfg.B) ∧
    ∀ k, k < s.cfg.B →
      bitAt y k = (decide (s.regVal rb ≤ k) && bitAt (s.reg ra) (k - s.regVal rb))

/-- R110 with R101, R103, R107 and R108: logical, zeros enter at the top. -/
def Obligations.ShrShiftsRightLogicallyByTheWholeRegister : Prop :=
  encodedInR 0x21 .shr ∧
  ∀ (s : State) (rd ra rb : RegNum), ∃ y : Wide s.cfg.W s.cfg.N,
    exec (.shr rd ra rb) s = .next { s with regs := s.regs.set rd y, reply := some ⟨.okay, none⟩ } ∧
    (s.cfg.B ≤ s.regVal rb → val y = 0) ∧
    (s.regVal rb < s.cfg.B → val y = s.regVal ra / 2 ^ s.regVal rb) ∧
    ∀ k, k < s.cfg.B →
      bitAt y k = (decide (k + s.regVal rb < s.cfg.B) && bitAt (s.reg ra) (k + s.regVal rb))

/-- R111 with R102, R107 and R63. -/
def Obligations.ShliShiftsLeftByTheImmediate : Prop :=
  encodedInI 0x22 .shli ∧
  ∀ (s : State) (rd ra : RegNum) (imm12 : BitVec 12), ∃ y : Wide s.cfg.W s.cfg.N,
    exec (.shli rd ra imm12) s = .next { s with regs := s.regs.set rd y, reply := some ⟨.okay, none⟩ } ∧
    (s.cfg.B ≤ imm12.toNat → val y = 0) ∧
    (imm12.toNat < s.cfg.B → val y = s.regVal ra * 2 ^ imm12.toNat % 2 ^ s.cfg.B) ∧
    ∀ k, k < s.cfg.B → bitAt y k = (decide (imm12.toNat ≤ k) && bitAt (s.reg ra) (k - imm12.toNat))

/-- R112 with R101, R103, R107 and R63. -/
def Obligations.ShriShiftsRightLogicallyByTheImmediate : Prop :=
  encodedInI 0x23 .shri ∧
  ∀ (s : State) (rd ra : RegNum) (imm12 : BitVec 12), ∃ y : Wide s.cfg.W s.cfg.N,
    exec (.shri rd ra imm12) s = .next { s with regs := s.regs.set rd y, reply := some ⟨.okay, none⟩ } ∧
    (s.cfg.B ≤ imm12.toNat → val y = 0) ∧
    (imm12.toNat < s.cfg.B → val y = s.regVal ra / 2 ^ imm12.toNat) ∧
    ∀ k, k < s.cfg.B →
      bitAt y k = (decide (k + imm12.toNat < s.cfg.B) && bitAt (s.reg ra) (k + imm12.toNat))

/-- R129 with R121. -/
def Obligations.AddWritesTheSumModuloTwoToTheB : Prop :=
  encodedInR 0x30 .add ∧
  ∀ (s : State) (rd ra rb : RegNum), ∃ y : Wide s.cfg.W s.cfg.N,
    exec (.add rd ra rb) s = .next { s with regs := s.regs.set rd y, reply := some ⟨.okay, none⟩ } ∧
    val y = (s.regVal ra + s.regVal rb) % 2 ^ s.cfg.B

/-- R130 with R124. -/
def Obligations.SubWritesTheDifferenceModuloTwoToTheB : Prop :=
  encodedInR 0x31 .sub ∧
  ∀ (s : State) (rd ra rb : RegNum), ∃ y : Wide s.cfg.W s.cfg.N,
    exec (.sub rd ra rb) s = .next { s with regs := s.regs.set rd y, reply := some ⟨.okay, none⟩ } ∧
    val y = if s.regVal rb ≤ s.regVal ra then s.regVal ra - s.regVal rb
      else s.regVal ra + 2 ^ s.cfg.B - s.regVal rb

/-- R131 with R126. -/
def Obligations.NegWritesTheTwosComplement : Prop :=
  encodedInU 0x32 .neg ∧
  ∀ (s : State) (rd ra : RegNum), ∃ y : Wide s.cfg.W s.cfg.N,
    exec (.neg rd ra) s = .next { s with regs := s.regs.set rd y, reply := some ⟨.okay, none⟩ } ∧
    val y = (2 ^ s.cfg.B - s.regVal ra) % 2 ^ s.cfg.B

/-- R132 with R127. -/
def Obligations.NotComplementsEveryLimb : Prop :=
  encodedInU 0x33 .not ∧
  ∀ (s : State) (rd ra : RegNum), ∃ y : Wide s.cfg.W s.cfg.N,
    exec (.not rd ra) s = .next { s with regs := s.regs.set rd y, reply := some ⟨.okay, none⟩ } ∧
    (∀ i, i < s.cfg.N → (limbAt y i).toNat = 2 ^ s.cfg.W - 1 - s.limbVal ra i) ∧
    val y = 2 ^ s.cfg.B - 1 - s.regVal ra

/-- R133 with R128. -/
def Obligations.IncAddsOneModuloTwoToTheB : Prop :=
  encodedInU 0x34 .inc ∧
  ∀ (s : State) (rd ra : RegNum), ∃ y : Wide s.cfg.W s.cfg.N,
    exec (.inc rd ra) s = .next { s with regs := s.regs.set rd y, reply := some ⟨.okay, none⟩ } ∧
    val y = (s.regVal ra + 1) % 2 ^ s.cfg.B

/-- R134 with R128. -/
def Obligations.DecSubtractsOneModuloTwoToTheB : Prop :=
  encodedInU 0x35 .dec ∧
  ∀ (s : State) (rd ra : RegNum), ∃ y : Wide s.cfg.W s.cfg.N,
    exec (.dec rd ra) s = .next { s with regs := s.regs.set rd y, reply := some ⟨.okay, none⟩ } ∧
    val y = if s.regVal ra = 0 then 2 ^ s.cfg.B - 1 else s.regVal ra - 1

/-- R148 with R141. -/
def Obligations.MulWritesTheLowHalfOfTheProduct : Prop :=
  encodedInR 0x40 .mul ∧
  ∀ (s : State) (rd ra rb : RegNum), ∃ y : Wide s.cfg.W s.cfg.N,
    exec (.mul rd ra rb) s = .next { s with regs := s.regs.set rd y, reply := some ⟨.okay, none⟩ } ∧
    val y = s.regVal ra * s.regVal rb % 2 ^ s.cfg.B

/-- R163 with R156, R157: the quotient, or DIVZERO for a zero divisor. That EINFO = `encode` of the command is the word as
written (R195) is the model's inference (log entry 5). -/
def Obligations.DivWritesTheQuotient : Prop :=
  encodedInR 0x50 .div ∧
  ∀ (s : State) (rd ra rb : RegNum),
    (s.regVal rb = 0 → exec (.div rd ra rb) s = .next
      { s with err := true, cause := 1, einfo := encode (.div rd ra rb), reply := some ⟨.error, none⟩ }) ∧
    (s.regVal rb ≠ 0 → ∃ y : Wide s.cfg.W s.cfg.N,
      exec (.div rd ra rb) s = .next { s with regs := s.regs.set rd y, reply := some ⟨.okay, none⟩ } ∧
      val y = s.regVal ra / s.regVal rb)

/-- R164 with R156, R157: the remainder, or DIVZERO for a zero divisor. That EINFO = `encode` of the command is the word as
written (R195) is the model's inference (log entry 5). -/
def Obligations.ModWritesTheRemainder : Prop :=
  encodedInR 0x51 .mod ∧
  ∀ (s : State) (rd ra rb : RegNum),
    (s.regVal rb = 0 → exec (.mod rd ra rb) s = .next
      { s with err := true, cause := 1, einfo := encode (.mod rd ra rb), reply := some ⟨.error, none⟩ }) ∧
    (s.regVal rb ≠ 0 → ∃ y : Wide s.cfg.W s.cfg.N,
      exec (.mod rd ra rb) s = .next { s with regs := s.regs.set rd y, reply := some ⟨.okay, none⟩ } ∧
      val y = s.regVal ra % s.regVal rb)

/-- R165 with R156, R157: quotient and remainder to two registers, DIVZERO for a zero divisor, ILLEGAL_CMD for rd = rr. Two
clauses are the model's inference: that EINFO = `encode` of the command is the word as written (R195, log entry 5), and that
`exec` gives rd = rr, a form no word decodes to, the error entry of its word (log entry 6). -/
def Obligations.DivmodWritesQuotientAndRemainder : Prop :=
  encodedInQ 0x52 .divmod ∧
  ∀ (s : State) (rd rr ra rb : RegNum),
    (rd = rr → exec (.divmod rd rr ra rb) s = .next
      { s with err := true, cause := 2, einfo := encode (.divmod rd rr ra rb), reply := some ⟨.error, none⟩ }) ∧
    (rd ≠ rr → s.regVal rb = 0 → exec (.divmod rd rr ra rb) s = .next
      { s with err := true, cause := 1, einfo := encode (.divmod rd rr ra rb), reply := some ⟨.error, none⟩ }) ∧
    (rd ≠ rr → s.regVal rb ≠ 0 → ∃ q r : Wide s.cfg.W s.cfg.N,
      exec (.divmod rd rr ra rb) s =
        .next { s with regs := (s.regs.set rd q).set rr r, reply := some ⟨.okay, none⟩ } ∧
      val q = s.regVal ra / s.regVal rb ∧ val r = s.regVal ra % s.regVal rb)

/-- R18 and R192: a legal command fails exactly when it divides by zero, and then with DIVZERO; every other one answers
OKAY and leaves the error record as it was. That EINFO = `encode` of the command is the word as written (R195) is the model's
inference (log entry 5). -/
def Obligations.LegalCommandFailsExactlyOnZeroDivisor : Prop :=
  ∀ (i : Instr) (s : State), i.wellFormed = true → ∃ t, exec i s = .next t ∧
    ((∃ rb, divisorOf i = some rb ∧ s.regVal rb = 0) →
      t.reply = some ⟨.error, none⟩ ∧ t.err = true ∧ t.cause = 1 ∧ t.einfo = encode i) ∧
    ((∀ rb, divisorOf i = some rb → s.regVal rb ≠ 0) →
      t.reply = some ⟨.okay, none⟩ ∧ t.err = s.err ∧ t.cause = s.cause ∧ t.einfo = s.einfo)

/-- R192 with R195 and R196, of the word that the host issues: a division by zero has the error entry as its whole effect, and
EINFO is the word exactly as written. -/
def Obligations.IssuedDivisionByZeroRecordsTheWordAsWritten : Prop :=
  ∀ (s : State) (c : Word32) (rest : List (Transaction s.cfg.W)) (i : Instr) (rb : RegNum),
    s.script = .ctlWrite 2 c :: rest → decode c = .ok i → divisorOf i = some rb → s.regVal rb = 0 →
    step s = .next { s with script := rest, err := true, cause := 1, einfo := c, reply := some ⟨.error, none⟩ }

/-- The frame of every command (R80): registers that are no destination, the build, the host's script; the error record
unless the command fails, and every register if it fails. -/
def Obligations.CommandChangesOnlyItsDestinations : Prop :=
  ∀ (i : Instr) (s t : State), exec i s = .next t →
    t.cfg = s.cfg ∧ HEq t.script s.script ∧
    (∀ r, r ∉ i.dests → t.regVal r = s.regVal r ∧ ∀ k, t.limbVal r k = s.limbVal r k) ∧
    ((t.reply = some ⟨.okay, none⟩ ∧ t.err = s.err ∧ t.cause = s.cause ∧ t.einfo = s.einfo) ∨
      (t.reply = some ⟨.error, none⟩ ∧ HEq t.regs s.regs))

/-- The priority of R198: a DIVMOD word with rd = rr or C[7:0] ≠ 0, and a DIV or MOD word with C[11:0] ≠ 0, raise
ILLEGAL_CMD whatever the divisor holds, and change no register. -/
def Obligations.IllegalWordWinsOverZeroDivisor : Prop :=
  ∀ (s : State) (c : Word32) (rest : List (Transaction s.cfg.W)), s.script = .ctlWrite 2 c :: rest →
    (opField c = 0x52 ∧ (rdField c = rrField c ∨ field c 7 0 ≠ 0)) ∨
      ((opField c = 0x50 ∨ opField c = 0x51) ∧ field c 11 0 ≠ 0) →
    step s = .next { s with script := rest, err := true, cause := 2, einfo := c, reply := some ⟨.error, none⟩ }

/-! ## The units -/

/-- The ripple adder of R122 computes R121's value, and its two carry detections are never both 1. -/
def Obligations.AdderRippleIsTheModularSum : Prop :=
  ∀ (cfg : Config) (x y : Wide cfg.W cfg.N), adder x y = add x y ∧
    ∀ i, ¬ (carryOut (limbAt x i + limbAt y i) (limbAt x i) = true ∧
      carryOut (limbAt x i + limbAt y i + bitLimb (carryIn x y i)) (limbAt x i + limbAt y i) = true)

/-- The ripple subtractor of R125 computes R124's value, and its two borrow detections are never both 1. -/
def Obligations.SubtractorRippleIsTheModularDifference : Prop :=
  ∀ (cfg : Config) (x y : Wide cfg.W cfg.N), subtractor x y = sub x y ∧
    ∀ i, ¬ (borrowOut (limbAt x i - limbAt y i) (limbAt x i) = true ∧
      borrowOut (limbAt x i - limbAt y i - bitLimb (borrowIn x y i)) (limbAt x i - limbAt y i) = true)

/-- R113: the shifter of R104 to R107 computes the values of R102 and R103, and the laws that follow. -/
def Obligations.ShifterComputesTheShiftsAndTheirLaws : Prop :=
  ∀ (cfg : Config) (x : Wide cfg.W cfg.N),
    (∀ s, shlUnit cfg.W_pos x s = shl x s ∧ shrUnit cfg.W_pos x s = shr x s) ∧
    shl x 0 = x ∧ shr x 0 = x ∧
    (∀ s t, shl (shl x s) t = shl x (s + t) ∧ shr (shr x s) t = shr x (s + t)) ∧
    ∀ s, shr (shl x s) s = x ↔ ∀ k, cfg.B - s ≤ k → k < cfg.B → bitAt x k = false

/-- R147: in whatever order the multiplier accumulates its products, the reference order among them, the result is the low B
bits of the product. -/
def Obligations.MultiplierInAnyOrderIsTheModularProduct : Prop :=
  ∀ (cfg : Config) (a b : Wide cfg.W cfg.N) (order : List (Nat × Nat)),
    order.Perm (productOrder cfg.N) → accumulate cfg.W_pos a b order = mul a b

/-- R143: a product of two half-limbs fits one limb, so the half-limb multipliers never overflow; R142: the half-limbs are
the digits of val(x) in base 2^h. -/
def Obligations.HalfLimbProductsFitOneLimb : Prop :=
  ∀ (cfg : Config) (a b : Wide cfg.W cfg.N) (i j : Nat),
    (halfLimb cfg.W_pos a i).toNat = val a / 2 ^ (cfg.W / 2 * i) % 2 ^ (cfg.W / 2) ∧
    (crossProduct cfg.W_pos a b i j).toNat = (halfLimb cfg.W_pos a i).toNat * (halfLimb cfg.W_pos b j).toNat

/-- R91 and R92: the scan unit finds the highest set bit, and the two-encoder structure counts the same zeros. -/
def Obligations.BitScanFindsTheHighestSetBit : Prop :=
  ∀ (cfg : Config) (x : Wide cfg.W cfg.N),
    msbUnit x = msb x ∧ (val x = 0 → msb x = 0) ∧
    (val x ≠ 0 → bitAt x (msb x) = true ∧ ∀ k, msb x < k → bitAt x k = false) ∧
    ∀ a : Limb cfg.W, a ≠ 0 → clzHalves a = clz a

/-- R95: the comparator is the unsigned order of the values, and equality is equality of every limb. -/
def Obligations.ComparatorIsTheUnsignedOrder : Prop :=
  ∀ (cfg : Config) (x y : Wide cfg.W cfg.N),
    (ltuUnit x y = true ↔ val x < val y) ∧ (geuUnit x y = true ↔ val y ≤ val x) ∧
    (equ x y = true ↔ ∀ i, i < cfg.N → limbAt x i = limbAt y i)

/-- R96: top limb signed, the rest unsigned, equals the order of the signed values (no command uses it). -/
def Obligations.SignedComparisonIsTheOrderOfSignedValues : Prop :=
  ∀ (cfg : Config) (x y : Wide cfg.W cfg.N), ltsUnit x y = true ↔ sval x < sval y

/-- R161: the divider's loop runs exactly shift + 1 times; its invariant at the top of iteration k, and its exit. -/
def Obligations.DividerLoopInvariantAndIterationCount : Prop :=
  ∀ (cfg : Config) (a b : Wide cfg.W cfg.N), val b ≠ 0 → val b ≤ val a →
    msbUnit b ≤ msbUnit a ∧ msbUnit a - msbUnit b + 1 ≤ cfg.B ∧
    (∀ k, k ≤ msbUnit a - msbUnit b →
      let d := (divIter cfg.W_pos)^[k] (divStart cfg.W_pos a b)
      let j := msbUnit a - msbUnit b - k
      val d.probe = 2 ^ j ∧ val d.dv = val b * 2 ^ j ∧ val a = val d.q * val b + val d.work ∧
        val d.work < val b * 2 ^ (j + 1) ∧ wAnd d.q d.probe = wZero) ∧
    let d := (divIter cfg.W_pos)^[msbUnit a - msbUnit b + 1] (divStart cfg.W_pos a b)
    d.probe = wZero ∧ val a = val d.q * val b + val d.work ∧ val d.work < val b

/-- R168: the divider's steps all produce the pair of R156, and none for a zero divisor. -/
def Obligations.DividerUnitIsQuotientAndRemainder : Prop :=
  ∀ (cfg : Config) (a b : Wide cfg.W cfg.N), divider cfg.W_pos a b = divmod a b

/-- The block built of its units and the block of the value rules are the same machine, command by command (R2, R92, R113,
R122, R125, R147, R168, U13). -/
def Obligations.UnitsExecuteEveryCommandAsTheValueRules : Prop :=
  ∀ (i : Instr) (s : State), execOnUnits i s = exec i s

/-! ## Laws of the values -/

/-- R135. -/
def Obligations.AddSubtractLaws : Prop :=
  ∀ (cfg : Config) (x y : Wide cfg.W cfg.N),
    add x wZero = x ∧ sub x wZero = x ∧ notw (notw x) = x ∧ add x (neg x) = wZero ∧
    sub x y = add x (neg y) ∧ add x y = add y x ∧ sub (add x y) y = x ∧ dec (inc x) = x ∧ neg x = sub wZero x ∧
    notw (wide (2 ^ cfg.B - 1) : Wide cfg.W cfg.N) = wZero ∧ notw wZero = (wide (2 ^ cfg.B - 1) : Wide cfg.W cfg.N) ∧
    notw (wide (2 ^ (cfg.B - 1) - 1) : Wide cfg.W cfg.N) = wide (2 ^ (cfg.B - 1)) ∧
    notw (wide (2 ^ (cfg.B - 1)) : Wide cfg.W cfg.N) = wide (2 ^ (cfg.B - 1) - 1)

/-- R150. -/
def Obligations.MultiplyLaws : Prop :=
  ∀ (cfg : Config) (x y z : Wide cfg.W cfg.N),
    mul x wOne = x ∧ mul x wZero = wZero ∧ (∀ s, s < cfg.B → shl x s = mul x (wide (2 ^ s : Nat))) ∧
    mul x y = mul y x ∧ mul x (add y z) = add (mul x y) (mul x z) ∧ mul x (neg wOne) = neg x ∧
    ∀ q r, divmod x y = some (q, r) → add (mul q y) r = x

/-- R166, with the uniqueness of R156: the pair is the one with x = q × y + r and r < y. -/
def Obligations.DivisionLaws : Prop :=
  ∀ (cfg : Config) (x y : Wide cfg.W cfg.N),
    divmod x wOne = some (x, wZero) ∧ divmod x wZero = none ∧ (val x < val y → divmod x y = some (wZero, x)) ∧
    (val y ≠ 0 → ∀ q r : Wide cfg.W cfg.N,
      divmod x y = some (q, r) ↔ val x = val q * val y + val r ∧ val r < val y) ∧
    ∀ q r, divmod x y = some (q, r) → add (mul q y) r = x

/-- R9 and R10: under the signed reading the same limbs are the signed sum, difference, negation and product modulo 2^B. -/
def Obligations.SignedReadingSharesTheDatapath : Prop :=
  ∀ (cfg : Config) (x y : Wide cfg.W cfg.N),
    -(2 ^ (cfg.B - 1) : Int) ≤ sval x ∧ sval x < 2 ^ (cfg.B - 1) ∧ (wide (sval x) : Wide cfg.W cfg.N) = x ∧
    add x y = wide (sval x + sval y) ∧ sub x y = wide (sval x - sval y) ∧ neg x = wide (-sval x) ∧
    mul x y = wide (sval x * sval y)

/-! ## The ports -/

/-- R42: the limb, or BAD_ACCESS with data 0 in a hole; no other state changes. -/
def Obligations.LimbReadReturnsTheLimb : Prop :=
  ∀ (s : State) (r : RegNum) (i : BitVec 8) (rest : List (Transaction s.cfg.W)), s.script = .limbRead r i :: rest →
    (i.toNat < s.cfg.N →
      step s = .next { s with script := rest, reply := some ⟨.okay, some (.limb (limbAt (s.reg r) i.toNat))⟩ }) ∧
    (s.cfg.N ≤ i.toNat → step s = .next
      { s with script := rest, err := true, cause := 3, einfo := BitVec.ofNat 32 (r.val * 256 + i.toNat),
               reply := some ⟨.error, some (.limb 0)⟩ })

/-- R43: one limb replaced and everything else as before, or BAD_ACCESS and no write in a hole. -/
def Obligations.LimbWriteReplacesOneLimb : Prop :=
  ∀ (s : State) (r : RegNum) (i : BitVec 8) (v : Limb s.cfg.W) (rest : List (Transaction s.cfg.W)),
    s.script = .limbWrite r i v :: rest →
    (i.toNat < s.cfg.N → ∃ y : Wide s.cfg.W s.cfg.N,
      step s = .next { s with regs := s.regs.set r y, script := rest, reply := some ⟨.okay, none⟩ } ∧
      ∀ j, limbAt y j = if j = i.toNat then v else limbAt (s.reg r) j) ∧
    (s.cfg.N ≤ i.toNat → step s = .next
      { s with script := rest, err := true, cause := 3, einfo := BitVec.ofNat 32 (2 ^ 30 + r.val * 256 + i.toNat),
               reply := some ⟨.error, none⟩ })

/-- R47 on the limb port: a read returns what the latest earlier write left there, and other limbs keep their value. -/
def Obligations.LimbReadReturnsTheLatestWrite : Prop :=
  ∀ (s : State) (r r' : RegNum) (i i' : BitVec 8) (v : Limb s.cfg.W) (rest : List (Transaction s.cfg.W)),
    s.script = .limbWrite r i v :: .limbRead r' i' :: rest → i.toNat < s.cfg.N → i'.toNat < s.cfg.N →
    ∃ y : Wide s.cfg.W s.cfg.N, Host.Core.run Sys2Proof.core 2 s = .next
      { s with
        regs := s.regs.set r y
        script := rest
        reply := some ⟨.okay, some (.limb (if r' = r ∧ i' = i then v else limbAt (s.reg r') i'.toNat))⟩ }

/-- R176, with the layout of STATUS (R26): the two readable control registers, no state changed. -/
def Obligations.ControlReadsReturnStatusAndEinfo : Prop :=
  ∀ (s : State) (rest : List (Transaction s.cfg.W)),
    (s.script = .ctlRead 0 :: rest →
      step s = .next { s with script := rest, reply := some ⟨.okay, some (.control s.status)⟩ }) ∧
    (s.script = .ctlRead 1 :: rest →
      step s = .next { s with script := rest, reply := some ⟨.okay, some (.control s.einfo)⟩ }) ∧
    s.status.getLsbD 0 = s.err ∧ (∀ k, k < 4 → s.status.getLsbD (4 + k) = s.cause.getLsbD k) ∧
    ∀ k, (1 ≤ k ∧ k ≤ 3) ∨ 8 ≤ k → s.status.getLsbD k = false

/-- R177: bit 0 of the data clears ERR, CAUSE and EINFO; nothing else of it matters, no register changes, always OKAY. -/
def Obligations.StatusWriteClearsTheErrorRecord : Prop :=
  ∀ (s : State) (v : Word32) (rest : List (Transaction s.cfg.W)), s.script = .ctlWrite 0 v :: rest →
    (v.getLsbD 0 = true → step s = .next
      { s with script := rest, err := false, cause := 0, einfo := 0, reply := some ⟨.okay, none⟩ }) ∧
    (v.getLsbD 0 = false → step s = .next { s with script := rest, reply := some ⟨.okay, none⟩ })

/-- R179, R180 and R181, with the access words of R195. -/
def Obligations.ForbiddenControlAccessesRaiseBadAccess : Prop :=
  ∀ (s : State) (v : Word32) (rest : List (Transaction s.cfg.W)),
    (s.script = .ctlWrite 1 v :: rest → step s = .next
      { s with script := rest, err := true, cause := 3, einfo := 0xC0000001, reply := some ⟨.error, none⟩ }) ∧
    (s.script = .ctlRead 2 :: rest → step s = .next
      { s with script := rest, err := true, cause := 3, einfo := 0x80000002,
               reply := some ⟨.error, some (.control 0)⟩ }) ∧
    (s.script = .ctlRead 3 :: rest → step s = .next
      { s with script := rest, err := true, cause := 3, einfo := 0x80000003,
               reply := some ⟨.error, some (.control 0)⟩ }) ∧
    (s.script = .ctlWrite 3 v :: rest → step s = .next
      { s with script := rest, err := true, cause := 3, einfo := 0xC0000003, reply := some ⟨.error, none⟩ })

/-- The fields of the access word (R195) at the limb port's addresses (R46). -/
def Obligations.AccessWordHoldsPortDirectionAndAddress : Prop :=
  ∀ (p : Port) (write : Bool) (r : RegNum) (i : BitVec 8),
    field (accessWord p write (limbAddr r i)) 31 31 = portBit p ∧
    field (accessWord p write (limbAddr r i)) 30 30 = write.toNat ∧
    field (accessWord p write (limbAddr r i)) 29 12 = 0 ∧
    field (accessWord p write (limbAddr r i)) 11 0 = r.val * 256 + i.toNat

/-! ## The whole machine -/

/-- R30: every limb of every wide register, STATUS with its fields, and EINFO are 0 in the reset state of every build. -/
def Obligations.ResetStateIsZeroEverywhere : Prop :=
  ∀ cfg : Config, (State.resetOf cfg).cfg = cfg ∧ (∀ r i, (State.resetOf cfg).limbVal r i = 0) ∧
    (∀ r, (State.resetOf cfg).regVal r = 0) ∧ (State.resetOf cfg).err = false ∧ (State.resetOf cfg).cause = 0 ∧
    (State.resetOf cfg).status = 0 ∧ (State.resetOf cfg).einfo = 0

/-- R210, R211: the reset transaction leads to the reset state of the same build, from every state. That the host's remaining
script survives it is the model's choice (log entry 7). -/
def Obligations.ResetTransactionLeadsToTheResetState : Prop :=
  ∀ (s : State) (rest : List (Transaction s.cfg.W)), s.script = .reset :: rest →
    step s = .next { State.resetOf s.cfg with script := rest }

/-- The invariant of R26, R27 and R191 holds at reset, in every build. -/
def Obligations.ErrorRecordIsConsistentAtReset : Prop :=
  State.reset.errorRecordOk ∧ ∀ cfg : Config, (State.resetOf cfg).errorRecordOk

/-- Every step keeps it. -/
def Obligations.EveryStepKeepsTheErrorRecordConsistent : Prop :=
  ∀ s t : State, s.errorRecordOk → step s = .next t → t.errorRecordOk

/-- R17, R196 and R197: a transaction takes effect with OKAY, or its whole effect is the error entry; reset returns nothing.
That the host's remaining script survives a reset is the model's choice (log entry 7). -/
def Obligations.TransactionEndsOkayOrInTheErrorEntry : Prop :=
  ∀ (s : State) (tr : Transaction s.cfg.W) (rest : List (Transaction s.cfg.W)), s.script = tr :: rest →
    ∃ t, step s = .next t ∧
      ((tr = .reset ∧ t = { State.resetOf s.cfg with script := rest }) ∨
       (∃ d, t.reply = some ⟨.okay, d⟩ ∧ t.cfg = s.cfg ∧
          ((∃ v, tr = .ctlWrite 0 v) ∨ (t.err = s.err ∧ t.cause = s.cause ∧ t.einfo = s.einfo))) ∨
       (∃ (c : Cause) (info : Word32) (p : Option Port), t =
          { s with script := rest, err := true, cause := causeCode c, einfo := info,
                   reply := some ⟨.error, p.map (zeroData s.cfg.W)⟩ }))

/-- R26: ERR is sticky; only a write of STATUS with bit 0 set and reset clear it. -/
def Obligations.ErrStaysSetUntilClearedOrReset : Prop :=
  ∀ s t : State, step s = .next t → s.err = true →
    t.err = true ∨ (∃ v rest, s.script = .ctlWrite 0 v :: rest ∧ v.getLsbD 0 = true) ∨ ∃ rest, s.script = .reset :: rest

/-- R23: a register keeps its content until a command with it as destination, a LimbWrite to it, or reset. -/
def Obligations.RegisterKeepsItsValueUntilWritten : Prop :=
  ∀ (s t : State) (r : RegNum), step s = .next t →
    (∃ rest i v, s.script = .limbWrite r i v :: rest) ∨
    (∃ rest c i, s.script = .ctlWrite 2 c :: rest ∧ decode c = .ok i ∧ r ∈ i.dests) ∨
    (∃ rest, s.script = .reset :: rest) ∨
    (t.regVal r = s.regVal r ∧ ∀ k, t.limbVal r k = s.limbVal r k)

/-- R196, R199 and R200: the error record blocks, delays and alters nothing. Two states that differ only in it take steps to
states that differ only in it, with the same response, and the same data unless a control register is read. -/
def Obligations.ErrorRecordInfluencesNothingElse : Prop :=
  ∀ (s t : State) (err : Bool) (cause : BitVec 4) (einfo : Word32), step s = .next t →
    ∃ (err' : Bool) (cause' : BitVec 4) (einfo' : Word32) (reply' : Option (Reply t.cfg.W)),
      step { s with err := err, cause := cause, einfo := einfo } =
        .next { t with err := err', cause := cause', einfo := einfo', reply := reply' } ∧
      reply'.map Reply.resp = t.reply.map Reply.resp ∧
      ((∀ n, s.script.head? ≠ some (.ctlRead n)) → reply' = t.reply)

/-- R8: no step reads SIGNED. -/
def Obligations.SignedParameterChangesNothing : Prop :=
  ∀ (s t : State) (b : Bool), step s = .next t →
    step { s with cfg := { s.cfg with signed := b } } = .next { t with cfg := { t.cfg with signed := b } }

/-- R6, R17 and R200: every run of k steps goes on, consumes the next k transactions, and keeps W and N. That the host's
transactions are a script, one consumed a step, and that a step with none left is an idle one, is the model's choice (log
entry 2). -/
def Obligations.EveryRunGoesOnAndConsumesItsScript : Prop :=
  ∀ (k : Nat) (s : State), ∃ t : State, Host.Core.run Sys2Proof.core k s = .next t ∧ t.cfg = s.cfg ∧
    HEq t.script (s.script.drop k)
end

