-- ==== Sys2Proof/Laws/PerInstr.lean ====
section
/-! SUPPORT. Per-instruction facts about the encoding: the number of R62's formula fits 32 bits, so the encoder loses no
bit. -/

namespace Sys2Proof.Laws

/-- A packed word fits 32 bits when its opcode fits 8 bits and its low part stays below the rb field's weight (or, for
format L, below the ra field's). -/
theorem packWord_lt {op low : Nat} {rd ra rb : RegNum} (hop : op < 256) (hlow : low + rb.val * 2 ^ 12 < 2 ^ 16) :
    packWord op rd ra rb low < 2 ^ 32 := by
  have h1 := rd.isLt
  have h2 := ra.isLt
  unfold packWord
  omega

end Sys2Proof.Laws

namespace Sys2Proof.Laws.EncodeExact

/-- The word of a command is the number of R62's formula, with no bit lost. -/
def Statement (i : Instr) : Prop := (encode i).toNat = encodeNat i

theorem of_lt {i : Instr} (h : encodeNat i < 2 ^ 32) : Statement i := by
  rw [Statement, encode, BitVec.toNat_ofNat, Nat.mod_eq_of_lt h]

theorem li (rd : RegNum) (imm16 : BitVec 16) : Statement (.li rd imm16) :=
  of_lt (Sys2Proof.Laws.packWord_lt (by decide) (by simpa using imm16.isLt))

theorem mov (rd ra : RegNum) : Statement (.mov rd ra) := of_lt (Sys2Proof.Laws.packWord_lt (by decide) (by decide))

theorem bits (rd ra : RegNum) : Statement (.bits rd ra) := of_lt (Sys2Proof.Laws.packWord_lt (by decide) (by decide))

theorem shl (rd ra rb : RegNum) : Statement (.shl rd ra rb) :=
  of_lt (Sys2Proof.Laws.packWord_lt (by decide) (by have := rb.isLt; omega))

theorem shr (rd ra rb : RegNum) : Statement (.shr rd ra rb) :=
  of_lt (Sys2Proof.Laws.packWord_lt (by decide) (by have := rb.isLt; omega))

theorem shli (rd ra : RegNum) (imm12 : BitVec 12) : Statement (.shli rd ra imm12) :=
  of_lt (Sys2Proof.Laws.packWord_lt (by decide) (by have := imm12.isLt; simp; omega))

theorem shri (rd ra : RegNum) (imm12 : BitVec 12) : Statement (.shri rd ra imm12) :=
  of_lt (Sys2Proof.Laws.packWord_lt (by decide) (by have := imm12.isLt; simp; omega))

theorem add (rd ra rb : RegNum) : Statement (.add rd ra rb) :=
  of_lt (Sys2Proof.Laws.packWord_lt (by decide) (by have := rb.isLt; omega))

theorem sub (rd ra rb : RegNum) : Statement (.sub rd ra rb) :=
  of_lt (Sys2Proof.Laws.packWord_lt (by decide) (by have := rb.isLt; omega))

theorem neg (rd ra : RegNum) : Statement (.neg rd ra) := of_lt (Sys2Proof.Laws.packWord_lt (by decide) (by decide))

theorem not (rd ra : RegNum) : Statement (.not rd ra) := of_lt (Sys2Proof.Laws.packWord_lt (by decide) (by decide))

theorem inc (rd ra : RegNum) : Statement (.inc rd ra) := of_lt (Sys2Proof.Laws.packWord_lt (by decide) (by decide))

theorem dec (rd ra : RegNum) : Statement (.dec rd ra) := of_lt (Sys2Proof.Laws.packWord_lt (by decide) (by decide))

theorem mul (rd ra rb : RegNum) : Statement (.mul rd ra rb) :=
  of_lt (Sys2Proof.Laws.packWord_lt (by decide) (by have := rb.isLt; omega))

theorem div (rd ra rb : RegNum) : Statement (.div rd ra rb) :=
  of_lt (Sys2Proof.Laws.packWord_lt (by decide) (by have := rb.isLt; omega))

theorem mod (rd ra rb : RegNum) : Statement (.mod rd ra rb) :=
  of_lt (Sys2Proof.Laws.packWord_lt (by decide) (by have := rb.isLt; omega))

theorem divmod (rd rr ra rb : RegNum) : Statement (.divmod rd rr ra rb) :=
  of_lt (Sys2Proof.Laws.packWord_lt (by decide) (by have := rb.isLt; have := rr.isLt; omega))

end Sys2Proof.Laws.EncodeExact
end

