-- ==== Sys2Proof/Laws/Decode.lean ====
section
/-! SUPPORT. The fields of a packed word (R61, R62): each field of R62's formula is read back by its accessor. -/

namespace Sys2Proof.Laws

variable {c : Word32} {op low : Nat} {rd ra rb : RegNum}

theorem opField_packWord (h : c.toNat = packWord op rd ra rb low) (hlow : low + rb.val * 2 ^ 12 < 2 ^ 16) (ho : op < 256) :
    opField c = op := by
  have := rd.isLt
  have := ra.isLt
  simp only [opField, field, h, packWord] at *
  omega

theorem rdField_packWord (h : c.toNat = packWord op rd ra rb low) (hlow : low + rb.val * 2 ^ 12 < 2 ^ 16) :
    rdField c = rd := by
  have := rd.isLt
  have := ra.isLt
  apply Fin.ext
  simp only [rdField, Fin.ofNat, field, h, packWord] at *
  omega

theorem raField_packWord (h : c.toNat = packWord op rd ra rb low) (hlow : low + rb.val * 2 ^ 12 < 2 ^ 16) :
    raField c = ra := by
  have := ra.isLt
  apply Fin.ext
  simp only [raField, Fin.ofNat, field, h, packWord] at *
  omega

theorem rbField_packWord (h : c.toNat = packWord op rd ra rb low) (hlow : low < 2 ^ 12) : rbField c = rb := by
  have := rb.isLt
  apply Fin.ext
  simp only [rbField, Fin.ofNat, field, h, packWord] at *
  omega

theorem low12_packWord (h : c.toNat = packWord op rd ra rb low) (hlow : low < 2 ^ 12) : field c 11 0 = low := by
  simp only [field, h, packWord] at *
  omega

theorem low16_packWord (h : c.toNat = packWord op rd ra rb low) (hlow : low + rb.val * 2 ^ 12 < 2 ^ 16) :
    field c 15 0 = low + rb.val * 2 ^ 12 := by
  simp only [field, h, packWord] at *
  omega

theorem bits1512_packWord (h : c.toNat = packWord op rd ra rb low) (hlow : low < 2 ^ 12) : field c 15 12 = rb.val := by
  have := rb.isLt
  simp only [field, h, packWord] at *
  omega

theorem bits1916_packWord (h : c.toNat = packWord op rd ra rb low) (hlow : low + rb.val * 2 ^ 12 < 2 ^ 16) :
    field c 19 16 = ra.val := by
  have := ra.isLt
  simp only [field, h, packWord] at *
  omega

end Sys2Proof.Laws
end

