-- ==== Sys2Proof/Laws/State.lean ====
section
/-! SUPPORT. What each named operation of Machine/Ops.lean does to each field of the state, and to each wide register; one
lemma per field per update, so that no proof unfolds a record update. The lemmas about `cfg` are true by rfl and not simp
lemmas: the types of the other fields depend on `cfg`, and simp would rewrite it inside those types. -/

namespace Sys2Proof.Laws

open Sys2Proof.Machine

/-! ## setReg -/

theorem setReg_cfg (s : State) (r : RegNum) (v) : (s.setReg r v).cfg = s.cfg := rfl
@[simp] theorem setReg_regs (s : State) (r : RegNum) (v) : (s.setReg r v).regs = s.regs.set r.val v := rfl
@[simp] theorem setReg_err (s : State) (r : RegNum) (v) : (s.setReg r v).err = s.err := rfl
@[simp] theorem setReg_cause (s : State) (r : RegNum) (v) : (s.setReg r v).cause = s.cause := rfl
@[simp] theorem setReg_einfo (s : State) (r : RegNum) (v) : (s.setReg r v).einfo = s.einfo := rfl
@[simp] theorem setReg_script (s : State) (r : RegNum) (v) : (s.setReg r v).script = s.script := rfl
@[simp] theorem setReg_reply (s : State) (r : RegNum) (v) : (s.setReg r v).reply = s.reply := rfl

/-- The register written reads as the value written, every other one as before (R23). -/
theorem setReg_reg (s : State) (r r' : RegNum) (v : Wide s.cfg.W s.cfg.N) :
    (s.setReg r v).reg r' = if r = r' then v else s.reg r' := by
  have h : (s.regs.set r.val v)[r'.val] = if r.val = r'.val then v else s.regs[r'.val] := by
    rw [Vector.getElem_set]
  simp only [Fin.val_inj] at h
  exact h

theorem setReg_regVal (s : State) (r r' : RegNum) (v : Wide s.cfg.W s.cfg.N) :
    (s.setReg r v).regVal r' = if r = r' then val v else s.regVal r' := by
  rw [State.regVal, setReg_reg]
  split <;> rfl

theorem setReg_limbVal (s : State) (r r' : RegNum) (v : Wide s.cfg.W s.cfg.N) (i : Nat) :
    (s.setReg r v).limbVal r' i = if r = r' then (limbAt v i).toNat else s.limbVal r' i := by
  rw [State.limbVal, setReg_reg]
  split <;> rfl

/-! ## okay -/

theorem okay_cfg (s : State) (d) : (s.okay d).cfg = s.cfg := rfl
@[simp] theorem okay_regs (s : State) (d) : (s.okay d).regs = s.regs := rfl
@[simp] theorem okay_err (s : State) (d) : (s.okay d).err = s.err := rfl
@[simp] theorem okay_cause (s : State) (d) : (s.okay d).cause = s.cause := rfl
@[simp] theorem okay_einfo (s : State) (d) : (s.okay d).einfo = s.einfo := rfl
@[simp] theorem okay_script (s : State) (d) : (s.okay d).script = s.script := rfl
@[simp] theorem okay_reply (s : State) (d) : (s.okay d).reply = some ⟨.okay, d⟩ := rfl
@[simp] theorem okay_reg (s : State) (d) (r : RegNum) : (s.okay d).reg r = s.reg r := rfl
@[simp] theorem okay_regVal (s : State) (d) (r : RegNum) : (s.okay d).regVal r = s.regVal r := rfl
@[simp] theorem okay_limbVal (s : State) (d) (r : RegNum) (i : Nat) : (s.okay d).limbVal r i = s.limbVal r i := rfl

/-! ## commit -/

theorem commit_cfg (s : State) (r : RegNum) (v) : (s.commit r v).cfg = s.cfg := rfl
@[simp] theorem commit_regs (s : State) (r : RegNum) (v) : (s.commit r v).regs = s.regs.set r.val v := rfl
@[simp] theorem commit_err (s : State) (r : RegNum) (v) : (s.commit r v).err = s.err := rfl
@[simp] theorem commit_cause (s : State) (r : RegNum) (v) : (s.commit r v).cause = s.cause := rfl
@[simp] theorem commit_einfo (s : State) (r : RegNum) (v) : (s.commit r v).einfo = s.einfo := rfl
@[simp] theorem commit_script (s : State) (r : RegNum) (v) : (s.commit r v).script = s.script := rfl
@[simp] theorem commit_reply (s : State) (r : RegNum) (v) : (s.commit r v).reply = some ⟨.okay, none⟩ := rfl

theorem commit_reg (s : State) (r r' : RegNum) (v : Wide s.cfg.W s.cfg.N) :
    (s.commit r v).reg r' = if r = r' then v else s.reg r' := setReg_reg s r r' v

theorem commit_regVal (s : State) (r r' : RegNum) (v : Wide s.cfg.W s.cfg.N) :
    (s.commit r v).regVal r' = if r = r' then val v else s.regVal r' := setReg_regVal s r r' v

theorem commit_limbVal (s : State) (r r' : RegNum) (v : Wide s.cfg.W s.cfg.N) (i : Nat) :
    (s.commit r v).limbVal r' i = if r = r' then (limbAt v i).toNat else s.limbVal r' i := setReg_limbVal s r r' v i

/-! ## raise -/

theorem raise_cfg (s : State) (c info p) : (s.raise c info p).cfg = s.cfg := rfl
@[simp] theorem raise_regs (s : State) (c info p) : (s.raise c info p).regs = s.regs := rfl
@[simp] theorem raise_err (s : State) (c info p) : (s.raise c info p).err = true := rfl
@[simp] theorem raise_cause (s : State) (c info p) : (s.raise c info p).cause = causeCode c := rfl
@[simp] theorem raise_einfo (s : State) (c info p) : (s.raise c info p).einfo = info := rfl
@[simp] theorem raise_script (s : State) (c info p) : (s.raise c info p).script = s.script := rfl
@[simp] theorem raise_reply (s : State) (c info) (p : Option Port) :
    (s.raise c info p).reply = some ⟨.error, p.map (zeroData s.cfg.W)⟩ := rfl
@[simp] theorem raise_reg (s : State) (c info p) (r : RegNum) : (s.raise c info p).reg r = s.reg r := rfl
@[simp] theorem raise_regVal (s : State) (c info p) (r : RegNum) : (s.raise c info p).regVal r = s.regVal r := rfl
@[simp] theorem raise_limbVal (s : State) (c info p) (r : RegNum) (i : Nat) :
    (s.raise c info p).limbVal r i = s.limbVal r i := rfl

/-! ## clearErrors -/

theorem clearErrors_cfg (s : State) : s.clearErrors.cfg = s.cfg := rfl
@[simp] theorem clearErrors_regs (s : State) : s.clearErrors.regs = s.regs := rfl
@[simp] theorem clearErrors_err (s : State) : s.clearErrors.err = false := rfl
@[simp] theorem clearErrors_cause (s : State) : s.clearErrors.cause = 0 := rfl
@[simp] theorem clearErrors_einfo (s : State) : s.clearErrors.einfo = 0 := rfl
@[simp] theorem clearErrors_script (s : State) : s.clearErrors.script = s.script := rfl
@[simp] theorem clearErrors_reply (s : State) : s.clearErrors.reply = s.reply := rfl
@[simp] theorem clearErrors_regVal (s : State) (r : RegNum) : s.clearErrors.regVal r = s.regVal r := rfl

/-! ## doReset -/

theorem doReset_cfg (s : State) : s.doReset.cfg = s.cfg := rfl
@[simp] theorem doReset_err (s : State) : s.doReset.err = false := rfl
@[simp] theorem doReset_cause (s : State) : s.doReset.cause = 0 := rfl
@[simp] theorem doReset_einfo (s : State) : s.doReset.einfo = 0 := rfl
@[simp] theorem doReset_script (s : State) : s.doReset.script = s.script := rfl
@[simp] theorem doReset_reply (s : State) : s.doReset.reply = none := rfl

/-! ## The script -/

@[simp] theorem script_regVal (s : State) (l) (r : RegNum) : ({ s with script := l } : State).regVal r = s.regVal r := rfl
@[simp] theorem script_limbVal (s : State) (l) (r : RegNum) (i : Nat) :
    ({ s with script := l } : State).limbVal r i = s.limbVal r i := rfl

/-- Writing limb i: limb i reads as v, every other limb as before (R43). -/
theorem limbAt_setLimb {W N : Nat} (x : Wide W N) (i j : Nat) (v : Limb W) (hi : i < N) :
    limbAt (setLimb x i v) j = if i = j then v else limbAt x j := by
  by_cases hj : j < N
  · simp only [setLimb, limbAt, hj, dif_pos, Vector.getElem_setIfInBounds]
  · have hne : i ≠ j := by omega
    simp [limbAt, hj, hne]

end Sys2Proof.Laws
end

