-- ==== Sys2Proof/Laws/Value.lean ====
section
/-! SUPPORT. Lemmas about wide values: `val` and `wide` are inverse to each other modulo 2^B, limbs and bits are digits of
`val`, and one value lemma for each operation of Machine/Value.lean. -/

namespace Sys2Proof.Laws

open Sys2Proof.Machine

variable {W N : Nat}

/-! ## Digits -/

theorem limbsVal_lt (l : List (Limb W)) : limbsVal l < 2 ^ (W * l.length) := by
  induction l with
  | nil => simp [limbsVal]
  | cons a l ih =>
    have ha := a.isLt
    have hp : 2 ^ (W * (l.length + 1)) = 2 ^ W * 2 ^ (W * l.length) := by rw [Nat.mul_succ, Nat.add_comm, Nat.pow_add]
    simp only [limbsVal, List.length_cons, hp]
    calc a.toNat + 2 ^ W * limbsVal l < 2 ^ W + 2 ^ W * limbsVal l := by omega
      _ = 2 ^ W * (limbsVal l + 1) := by ring
      _ ≤ 2 ^ W * 2 ^ (W * l.length) := Nat.mul_le_mul_left _ ih

/-- val(x) lies in [0, 2^B - 1] (R12). -/
theorem val_lt (x : Wide W N) : val x < 2 ^ (N * W) := by
  have h := limbsVal_lt x.toList
  rwa [Vector.length_toList, Nat.mul_comm] at h

theorem limbsVal_digit (l : List (Limb W)) (i : Nat) :
    limbsVal l / 2 ^ (W * i) % 2 ^ W = (l[i]?.getD 0).toNat := by
  induction l generalizing i with
  | nil => simp [limbsVal]
  | cons a l ih =>
    have ha := a.isLt
    have hW : 0 < 2 ^ W := Nat.two_pow_pos W
    cases i with
    | zero => simp [limbsVal, Nat.mod_eq_of_lt ha]
    | succ i =>
      have hp : 2 ^ (W * (i + 1)) = 2 ^ W * 2 ^ (W * i) := by rw [Nat.mul_succ, Nat.add_comm, Nat.pow_add]
      rw [limbsVal, hp, ← Nat.div_div_eq_div_mul, Nat.add_mul_div_left _ _ hW, Nat.div_eq_of_lt ha, Nat.zero_add, ih]
      simp

theorem limbAt_eq_getElem (x : Wide W N) (i : Nat) (h : i < N) : limbAt x i = x[i] := by
  simp [limbAt, h]

theorem limbAt_of_ge (x : Wide W N) (i : Nat) (h : N ≤ i) : limbAt x i = 0 := by
  simp [limbAt, Nat.not_lt.mpr h]

theorem limbAt_eq_getD (x : Wide W N) (i : Nat) : limbAt x i = x.toList[i]?.getD 0 := by
  by_cases h : i < N
  · rw [limbAt_eq_getElem x i h, List.getElem?_eq_getElem (by simpa using h)]; simp
  · rw [limbAt_of_ge x i (by omega), List.getElem?_eq_none (by simpa using h)]; rfl

/-- Limb i is digit i of val(x) in base 2^W, for every i (a limb outside the value is 0). -/
theorem limbAt_toNat (x : Wide W N) (i : Nat) : (limbAt x i).toNat = val x / 2 ^ (W * i) % 2 ^ W := by
  rw [limbAt_eq_getD, val, limbsVal_digit]

theorem limbAt_ofFn (f : Fin N → Limb W) (i : Nat) :
    limbAt (Vector.ofFn f) i = if h : i < N then f ⟨i, h⟩ else 0 := by
  by_cases h : i < N <;> simp [limbAt, h]

/-- Two wide values with equal limbs are equal. -/
theorem wide_ext_limb {x y : Wide W N} (h : ∀ i, i < N → limbAt x i = limbAt y i) : x = y := by
  apply Vector.ext
  intro i hi
  simpa [limbAt, hi] using h i hi

/-- Two wide values with equal numbers are equal. -/
theorem val_inj {x y : Wide W N} (h : val x = val y) : x = y :=
  wide_ext_limb fun i _ => BitVec.eq_of_toNat_eq (by rw [limbAt_toNat, limbAt_toNat, h])

theorem val_eq_iff {x y : Wide W N} : x = y ↔ val x = val y := ⟨congrArg val, val_inj⟩

theorem limbsVal_append (l m : List (Limb W)) :
    limbsVal (l ++ m) = limbsVal l + 2 ^ (W * l.length) * limbsVal m := by
  induction l with
  | nil => simp [limbsVal]
  | cons a l ih =>
    simp only [List.cons_append, limbsVal, ih, List.length_cons, Nat.mul_succ, Nat.pow_add]
    ring

/-- R12's sum: val(x) = Σ x[i] × 2^(W × i). -/
theorem val_eq_sum (x : Wide W N) : val x = ∑ i ∈ Finset.range N, (limbAt x i).toNat * 2 ^ (W * i) := by
  have key : ∀ k, val x % 2 ^ (W * k) = ∑ i ∈ Finset.range k, (limbAt x i).toNat * 2 ^ (W * i) := by
    intro k
    induction k with
    | zero => simp [Nat.mod_one]
    | succ k ih =>
      rw [Finset.sum_range_succ, ← ih, limbAt_toNat, Nat.mul_succ, Nat.pow_add, Nat.mod_mul]
      ring
  have h := key N
  rwa [Nat.mod_eq_of_lt (by rw [Nat.mul_comm]; exact val_lt x)] at h

/-! ## wide and val -/

theorem limbAt_wide (v : Int) (i : Nat) (h : i < N) :
    limbAt (wide v : Wide W N) i = BitVec.ofNat W ((v % (2 ^ (N * W) : Nat)).toNat / 2 ^ (W * i)) := by
  rw [wide, limbAt_ofFn, dif_pos h]

/-- val(wide(v)) = v mod 2^B (R12). -/
@[simp] theorem val_wide (v : Int) : val (wide v : Wide W N) = (v % (2 ^ (N * W) : Nat)).toNat := by
  generalize hm : (v % (2 ^ (N * W) : Nat)).toNat = m
  have hlt : m < 2 ^ (W * N) := by
    have h1 := Int.emod_lt_of_pos v (b := ((2 ^ (N * W) : Nat) : Int)) (by positivity)
    have h2 := Int.emod_nonneg v (b := ((2 ^ (N * W) : Nat) : Int)) (by positivity)
    rw [Nat.mul_comm W N]
    omega
  have key : ∀ k, k ≤ N → ∑ i ∈ Finset.range k, (limbAt (wide v : Wide W N) i).toNat * 2 ^ (W * i) = m % 2 ^ (W * k) := by
    intro k hk
    induction k with
    | zero => simp [Nat.mod_one]
    | succ k ih =>
      rw [Finset.sum_range_succ, ih (by omega), limbAt_wide v k (by omega), hm, BitVec.toNat_ofNat, Nat.mul_succ,
        Nat.pow_add, Nat.mod_mul]
      ring
  rw [val_eq_sum, key N (Nat.le_refl N), Nat.mod_eq_of_lt hlt]

theorem val_wide_nat (v : Nat) : val (wide (v : Int) : Wide W N) = v % 2 ^ (N * W) := by
  rw [val_wide, ← Int.natCast_mod, Int.toNat_natCast]

theorem val_wide_of_lt {v : Nat} (h : v < 2 ^ (N * W)) : val (wide (v : Int) : Wide W N) = v := by
  rw [val_wide_nat, Nat.mod_eq_of_lt h]

/-- wide(val(x)) = x (R12). -/
@[simp] theorem wide_val (x : Wide W N) : wide (val x : Int) = x := val_inj (val_wide_of_lt (val_lt x))

@[simp] theorem val_wZero : val (wZero : Wide W N) = 0 := by simp [wZero]

theorem val_wOne (h : 0 < N * W) : val (wOne : Wide W N) = 1 := by
  have h1 : (1 : Nat) < 2 ^ (N * W) := Nat.one_lt_two_pow (by omega)
  exact val_wide_of_lt (W := W) (N := N) h1

theorem wZero_eq_replicate : (wZero : Wide W N) = Vector.replicate N 0 := by
  apply wide_ext_limb
  intro i hi
  rw [wZero, limbAt_wide 0 i hi]
  simp [limbAt, hi]

theorem val_eq_zero_iff (x : Wide W N) : val x = 0 ↔ x = wZero := by rw [val_eq_iff, val_wZero]

/-! ## Bits -/

/-- Bit k of x is bit k of val(x) (R12). -/
theorem bitAt_eq_testBit (hW : 0 < W) (x : Wide W N) (k : Nat) : bitAt x k = (val x).testBit k := by
  have hk : k % W < W := Nat.mod_lt k hW
  have hd : W * (k / W) + k % W = k := Nat.div_add_mod k W
  rw [bitAt, BitVec.getLsbD, limbAt_toNat, Nat.testBit_mod_two_pow, Nat.testBit_div_two_pow]
  simp [hk, Nat.add_comm (k % W), hd]

theorem bitAt_of_ge (hW : 0 < W) (x : Wide W N) (k : Nat) (h : N * W ≤ k) : bitAt x k = false := by
  rw [bitAt_eq_testBit hW]
  exact Nat.testBit_lt_two_pow (Nat.lt_of_lt_of_le (val_lt x) (Nat.pow_le_pow_right (by decide) h))

/-- Two wide values with equal bits are equal. -/
theorem wide_ext_bit (hW : 0 < W) {x y : Wide W N} (h : ∀ k, k < N * W → bitAt x k = bitAt y k) : x = y := by
  apply val_inj
  apply Nat.eq_of_testBit_eq
  intro k
  rw [← bitAt_eq_testBit hW, ← bitAt_eq_testBit hW]
  by_cases hk : k < N * W
  · exact h k hk
  · rw [bitAt_of_ge hW x k (by omega), bitAt_of_ge hW y k (by omega)]

theorem limbAt_wAnd (x y : Wide W N) (i : Nat) : limbAt (wAnd x y) i = limbAt x i &&& limbAt y i := by
  rw [wAnd, limbAt_ofFn]
  by_cases h : i < N
  · simp [h]
  · simp [h, limbAt_of_ge _ i (Nat.not_lt.mp h)]

theorem limbAt_wOr (x y : Wide W N) (i : Nat) : limbAt (wOr x y) i = limbAt x i ||| limbAt y i := by
  rw [wOr, limbAt_ofFn]
  by_cases h : i < N
  · simp [h]
  · simp [h, limbAt_of_ge _ i (Nat.not_lt.mp h)]

theorem limbAt_notw (x : Wide W N) (i : Nat) (h : i < N) : limbAt (notw x) i = ~~~ limbAt x i := by
  rw [notw, limbAt_ofFn, dif_pos h]

theorem bitAt_wAnd (x y : Wide W N) (k : Nat) : bitAt (wAnd x y) k = (bitAt x k && bitAt y k) := by
  simp [bitAt, limbAt_wAnd]

theorem bitAt_wOr (x y : Wide W N) (k : Nat) : bitAt (wOr x y) k = (bitAt x k || bitAt y k) := by
  simp [bitAt, limbAt_wOr]

theorem val_wAnd (hW : 0 < W) (x y : Wide W N) : val (wAnd x y) = val x &&& val y := by
  apply Nat.eq_of_testBit_eq
  intro k
  rw [← bitAt_eq_testBit hW, bitAt_wAnd, Nat.testBit_and, bitAt_eq_testBit hW, bitAt_eq_testBit hW]

theorem val_wOr (hW : 0 < W) (x y : Wide W N) : val (wOr x y) = val x ||| val y := by
  apply Nat.eq_of_testBit_eq
  intro k
  rw [← bitAt_eq_testBit hW, bitAt_wOr, Nat.testBit_or, bitAt_eq_testBit hW, bitAt_eq_testBit hW]

/-! ## One value lemma for each operation -/

theorem equ_iff (x y : Wide W N) : equ x y = true ↔ val x = val y := by
  rw [equ, decide_eq_true_iff, val_eq_iff]

theorem equ_wZero (x : Wide W N) : equ x wZero = decide (val x = 0) := by
  rw [Bool.eq_iff_iff, equ_iff, val_wZero, decide_eq_true_iff]

theorem ltu_iff (x y : Wide W N) : ltu x y = true ↔ val x < val y := by simp [ltu]

theorem geu_iff (x y : Wide W N) : geu x y = true ↔ val y ≤ val x := by simp [geu, ltu]

theorem msb_lt (hB : 0 < N * W) (x : Wide W N) : msb x < N * W := by
  unfold msb
  split
  · exact hB
  · exact (Nat.log2_lt ‹_›).mpr (val_lt x)

theorem val_add (x y : Wide W N) : val (add x y) = (val x + val y) % 2 ^ (N * W) := by
  rw [add, ← Nat.cast_add, val_wide_nat]

theorem val_sub (x y : Wide W N) : (val (sub x y) : Int) = ((val x : Int) - val y) % 2 ^ (N * W) := by
  rw [sub, val_wide, Int.toNat_of_nonneg (Int.emod_nonneg _ (by positivity))]
  push_cast
  rfl

theorem val_mul (x y : Wide W N) : val (mul x y) = val x * val y % 2 ^ (N * W) := by
  rw [mul, ← Nat.cast_mul, val_wide_nat]

theorem val_shl_of_lt (x : Wide W N) {s : Nat} (h : s < N * W) : val (shl x s) = val x * 2 ^ s % 2 ^ (N * W) := by
  rw [shl, if_pos h, val_wide_nat]

theorem shl_of_ge (x : Wide W N) {s : Nat} (h : N * W ≤ s) : shl x s = wZero := by
  rw [shl, if_neg (by omega)]

theorem val_shr_of_lt (x : Wide W N) {s : Nat} (h : s < N * W) : val (shr x s) = val x / 2 ^ s := by
  rw [shr, if_pos h, val_wide_of_lt (Nat.lt_of_le_of_lt (Nat.div_le_self _ _) (val_lt x))]

theorem shr_of_ge (x : Wide W N) {s : Nat} (h : N * W ≤ s) : shr x s = wZero := by
  rw [shr, if_neg (by omega)]

theorem val_immSeed (imm16 : BitVec 16) : val (immSeed imm16 : Wide W N) = imm16.toNat % 2 ^ (N * W) :=
  val_wide_nat imm16.toNat

/-- `divmod` has no value exactly for a zero divisor (R156, R157). -/
theorem divmod_eq_none_iff (x y : Wide W N) : divmod x y = none ↔ val y = 0 := by
  rw [divmod, equ_wZero]
  by_cases h : val y = 0 <;> simp [h]

/-- For a nonzero divisor `divmod` is the pair of R156. -/
theorem divmod_of_ne {x y : Wide W N} (h : val y ≠ 0) :
    ∃ q r, divmod x y = some (q, r) ∧ val q = val x / val y ∧ val r = val x % val y := by
  refine ⟨_, _, ?_, val_wide_of_lt (Nat.lt_of_le_of_lt (Nat.div_le_self _ _) (val_lt x)),
    val_wide_of_lt (Nat.lt_of_le_of_lt (Nat.mod_le _ _) (val_lt x))⟩
  simp [divmod, equ_wZero, h]

end Sys2Proof.Laws
end

