-- ==== Sys2Proof/Laws/Step.lean ====
section
/-! SUPPORT. What a command and a step can do, said once: a command ends in a commit, in two writes (DIVMOD), or in the
error entry; a transaction is one of the forms of `perform`. -/

namespace Sys2Proof.Laws

open Sys2Proof.Machine

/-- What the divide commands share: DIVZERO for a zero divisor, else the pair of R156 is handed on. -/
theorem division_cases (s : State) (c : Word32) (ra rb : RegNum)
    (write : Wide s.cfg.W s.cfg.N → Wide s.cfg.W s.cfg.N → State) :
    (s.regVal rb = 0 ∧ s.division c ra rb write = s.raise .divZero c none) ∨
    (s.regVal rb ≠ 0 ∧ ∃ q r, s.division c ra rb write = write q r ∧
      val q = s.regVal ra / s.regVal rb ∧ val r = s.regVal ra % s.regVal rb) := by
  by_cases h : s.regVal rb = 0
  · have hn : divmod (s.reg ra) (s.reg rb) = none := (divmod_eq_none_iff _ _).mpr h
    exact .inl ⟨h, by rw [State.division, hn]⟩
  · obtain ⟨q, r, hd, hq, hr⟩ := divmod_of_ne (x := s.reg ra) (y := s.reg rb) h
    exact .inr ⟨h, q, r, by rw [State.division, hd], hq, hr⟩

/-- Every way a command can end: one destination written, two distinct destinations written, or the error entry. -/
theorem exec_cases (i : Instr) (s : State) :
    (∃ rd y, i.dests = [rd] ∧ exec i s = .next (s.commit rd y)) ∨
    (∃ rd rr q r, i.dests = [rd, rr] ∧ rd ≠ rr ∧ exec i s = .next ((s.setReg rd q).commit rr r)) ∨
    (∃ c, exec i s = .next (s.raise c (encode i) none)) := by
  cases i with
  | div rd ra rb =>
    rcases division_cases s (encode (.div rd ra rb)) ra rb (fun q _ => s.commit rd q) with ⟨_, h⟩ | ⟨_, q, r, h, _⟩
    · exact .inr (.inr ⟨.divZero, by rw [exec, execDiv, h]⟩)
    · exact .inl ⟨rd, q, rfl, by rw [exec, execDiv, h]⟩
  | mod rd ra rb =>
    rcases division_cases s (encode (.mod rd ra rb)) ra rb (fun _ r => s.commit rd r) with ⟨_, h⟩ | ⟨_, q, r, h, _⟩
    · exact .inr (.inr ⟨.divZero, by rw [exec, execMod, h]⟩)
    · exact .inl ⟨rd, r, rfl, by rw [exec, execMod, h]⟩
  | divmod rd rr ra rb =>
    by_cases hd : rd = rr
    · exact .inr (.inr ⟨.illegalCmd, by rw [exec, execDivmod, if_pos hd]⟩)
    · rcases division_cases s (encode (.divmod rd rr ra rb)) ra rb (fun q r => (s.setReg rd q).commit rr r) with
        ⟨_, h⟩ | ⟨_, q, r, h, _⟩
      · exact .inr (.inr ⟨.divZero, by rw [exec, execDivmod, if_neg hd, h]⟩)
      · exact .inr (.inl ⟨rd, rr, q, r, rfl, hd, by rw [exec, execDivmod, if_neg hd, h]⟩)
  | _ => exact .inl ⟨_, _, rfl, rfl⟩

theorem step_nil (s : State) (h : s.script = []) : step s = .next s := by
  rw [step]
  split
  · rfl
  · simp_all

theorem step_cons (s : State) (t : Transaction s.cfg.W) (rest : List (Transaction s.cfg.W)) (h : s.script = t :: rest) :
    step s = perform { s with script := rest } t := by
  rw [step]
  split
  · simp_all
  · next u l hu =>
    rw [hu] at h
    cases h
    rfl

/-- A run of k + 1 steps whose first step answers next goes on from there. -/
theorem run_succ {s t : State} (k : Nat) (h : step s = .next t) :
    Host.Core.run Sys2Proof.core (k + 1) s = Host.Core.run Sys2Proof.core k t := by
  have e := Host.Core.run.eq_2 Sys2Proof.core s k
  rw [show Sys2Proof.core.step s = .next t from h] at e
  exact e

/-- The forms of a limb read (R42). -/
theorem limbRead_cases (s : State) (r : RegNum) (i : BitVec 8) :
    (i.toNat < s.cfg.N ∧ s.limbRead r i = s.okay (some (.limb (limbAt (s.reg r) i.toNat)))) ∨
    (s.cfg.N ≤ i.toNat ∧ s.limbRead r i = s.raise .badAccess (accessWord .limb false (limbAddr r i)) (some .limb)) := by
  rw [State.limbRead]
  split
  · exact .inl ⟨‹_›, rfl⟩
  · exact .inr ⟨Nat.not_lt.mp ‹_›, rfl⟩

/-- The forms of a limb write (R43). -/
theorem limbWrite_cases (s : State) (r : RegNum) (i : BitVec 8) (v : Limb s.cfg.W) :
    (i.toNat < s.cfg.N ∧ s.limbWrite r i v = (s.setReg r (setLimb (s.reg r) i.toNat v)).okay none) ∨
    (s.cfg.N ≤ i.toNat ∧ s.limbWrite r i v = s.raise .badAccess (accessWord .limb true (limbAddr r i)) none) := by
  rw [State.limbWrite]
  split
  · exact .inl ⟨‹_›, rfl⟩
  · exact .inr ⟨Nat.not_lt.mp ‹_›, rfl⟩

/-- The forms of a control read (R176, R180, R181). -/
theorem ctlRead_cases (s : State) (n : BitVec 2) :
    (n = 0 ∧ s.ctlRead n = s.okay (some (.control s.status))) ∨
    (n = 1 ∧ s.ctlRead n = s.okay (some (.control s.einfo))) ∨
    ((n = 2 ∨ n = 3) ∧ s.ctlRead n = s.badControl n false) := by
  rw [State.ctlRead]
  by_cases h0 : n = 0
  · exact .inl ⟨h0, if_pos h0⟩
  · by_cases h1 : n = 1
    · exact .inr (.inl ⟨h1, by rw [if_neg h0, if_pos h1]⟩)
    · exact .inr (.inr ⟨by revert h0 h1; revert n; decide, by rw [if_neg h0, if_neg h1]⟩)

/-- The forms of a control write (R177 to R179, R181). -/
theorem ctlWrite_cases (s : State) (n : BitVec 2) (v : Word32) :
    (n = 0 ∧ ctlWrite s n v = .next (s.writeStatus v)) ∨
    (n = 2 ∧ ctlWrite s n v = issue s v) ∨
    ((n = 1 ∨ n = 3) ∧ ctlWrite s n v = .next (s.badControl n true)) := by
  rw [ctlWrite]
  by_cases h0 : n = 0
  · exact .inl ⟨h0, if_pos h0⟩
  · by_cases h2 : n = 2
    · exact .inr (.inl ⟨h2, by rw [if_neg h0, if_pos h2]⟩)
    · exact .inr (.inr ⟨by revert h0 h2; revert n; decide, by rw [if_neg h0, if_neg h2]⟩)

/-- A command word either runs its command or raises ILLEGAL_CMD (R178). -/
theorem issue_cases (s : State) (c : Word32) :
    (∃ i, decode c = .ok i ∧ issue s c = exec i s) ∨
    (∃ e, decode c = .error e ∧ issue s c = .next (s.raise .illegalCmd c none)) := by
  rw [issue]
  split
  · exact .inl ⟨_, ‹_›, rfl⟩
  · exact .inr ⟨_, ‹_›, rfl⟩

/-- A write to CMD issues the word (R178). -/
theorem ctlWrite_cmd (s : State) (c : Word32) : ctlWrite s 2 c = issue s c := by
  rw [ctlWrite, if_neg (by decide), if_pos rfl]

/-- The forms of a write of STATUS (R177). -/
theorem writeStatus_cases (s : State) (v : Word32) :
    (v.getLsbD 0 = true ∧ s.writeStatus v = s.clearErrors.okay none) ∨
    (v.getLsbD 0 = false ∧ s.writeStatus v = s.okay none) := by
  rw [State.writeStatus]
  split
  · exact .inl ⟨‹_›, rfl⟩
  · exact .inr ⟨Bool.eq_false_iff.mpr ‹_›, rfl⟩

/-! ## The invariant of the error record, one lemma per operation -/

@[simp] theorem okay_errorRecordOk (s : State) (d) : (s.okay d).errorRecordOk ↔ s.errorRecordOk := Iff.rfl

@[simp] theorem setReg_errorRecordOk (s : State) (r : RegNum) (v) : (s.setReg r v).errorRecordOk ↔ s.errorRecordOk := Iff.rfl

@[simp] theorem commit_errorRecordOk (s : State) (r : RegNum) (v) : (s.commit r v).errorRecordOk ↔ s.errorRecordOk := Iff.rfl

@[simp] theorem script_errorRecordOk (s : State) (l) : ({ s with script := l } : State).errorRecordOk ↔ s.errorRecordOk :=
  Iff.rfl

/-- The error entry leaves the record consistent, whatever it was (R196, R200). -/
theorem raise_errorRecordOk (s : State) (c : Cause) (info : Word32) (p : Option Port) :
    (s.raise c info p).errorRecordOk := by
  cases c <;> simp [State.errorRecordOk, causeCode]

theorem clearErrors_errorRecordOk (s : State) : s.clearErrors.errorRecordOk := by simp [State.errorRecordOk]

end Sys2Proof.Laws
end

