-- ==== Sys2Proof/Tests/Slice0.lean ====
section
/-! SUPPORT. Tests of the model against the spec's own words, examples and vectors (sections cited at each test), the smoke
test of `wellFormed`, and a witness for the hypotheses of every obligation that has some. -/

namespace Sys2Proof.Tests

open Sys2Proof Sys2Proof.Machine

/-! ## Builders and observers -/

/-- The reset state of a build with the first registers loaded. -/
def load (cfg : Config) (vals : List Nat) : State :=
  { State.resetOf cfg with regs := Vector.ofFn fun r : Fin 16 => wide ((vals.getD r.val 0 : Nat) : Int) }

/-- The small build of the spec's exhaustive vectors: W = 8, N = 2. -/
def small : Config := { W := 8, N := 2 }

/-- The number register r holds after a step that goes on. -/
def regAfter (o : Host.Outcome State Fault Refusal) (r : RegNum) : Option Nat :=
  match o with
  | .next t => some (t.regVal r)
  | _ => none

/-- Response, STATUS and EINFO after a step that goes on. -/
def recordAfter (o : Host.Outcome State Fault Refusal) : Option (Option Resp × Word32 × Word32) :=
  match o with
  | .next t => some (t.reply.map Reply.resp, t.status, t.einfo)
  | _ => none

/-- The state of the reference build with these registers and one command word issued. -/
def issued (vals : List Nat) (c : Word32) : State := { load Config.reference vals with script := [.ctlWrite 2 c] }

/-! ## Well-formedness -/

theorem test_wellFormed_refuses_divmod_same_destination : (Instr.divmod 2 2 0 1).wellFormed = false := by decide

theorem test_wellFormed_accepts_divmod : (Instr.divmod 2 3 0 1).wellFormed = true := by decide

/-! ## Decoding: words written out from R62's patterns, and R68's and section 2.7's words -/

theorem test_decode_li : decode 0b00000001_0100_0000_1111111111111111 = .ok (.li 4 0xFFFF) := by decide
theorem test_decode_mov : decode 0b00000010_0111_0001_0000000000000000 = .ok (.mov 7 1) := by decide
theorem test_decode_bits : decode 0b00010000_0001_0000_0000000000000000 = .ok (.bits 1 0) := by decide
theorem test_decode_shl : decode 0b00100000_0010_0000_0001_000000000000 = .ok (.shl 2 0 1) := by decide
theorem test_decode_shr : decode 0b00100001_0010_0000_0001_000000000000 = .ok (.shr 2 0 1) := by decide
theorem test_decode_shli : decode 0b00100010_0001_0000_0000_111111111111 = .ok (.shli 1 0 4095) := by decide
theorem test_decode_shri : decode 0b00100011_0001_0000_0000_000000100001 = .ok (.shri 1 0 33) := by decide
theorem test_decode_add : decode 0b00110000_1111_1111_1111_000000000000 = .ok (.add 15 15 15) := by decide
theorem test_decode_sub : decode 0b00110001_0101_0100_0000_000000000000 = .ok (.sub 5 4 0) := by decide
theorem test_decode_neg : decode 0b00110010_0011_0011_0000000000000000 = .ok (.neg 3 3) := by decide
theorem test_decode_not : decode 0b00110011_0001_0000_0000000000000000 = .ok (.not 1 0) := by decide
theorem test_decode_inc : decode 0b00110100_0000_0000_0000000000000000 = .ok (.inc 0 0) := by decide
theorem test_decode_dec : decode 0b00110101_1110_1110_0000000000000000 = .ok (.dec 14 14) := by decide
theorem test_decode_mul : decode 0b01000000_0100_0010_0001_000000000000 = .ok (.mul 4 2 1) := by decide
theorem test_decode_div : decode 0b01010000_0010_0000_0001_000000000000 = .ok (.div 2 0 1) := by decide
theorem test_decode_mod : decode 0b01010001_1010_1011_1100_000000000000 = .ok (.mod 10 11 12) := by decide
theorem test_decode_divmod : decode 0b01010010_0010_0000_0001_0011_00000000 = .ok (.divmod 2 3 0 1) := by decide

theorem test_decode_unassigned :
    decode 0x00000000 = .error .unassignedOpcode ∧ decode 0xFFFFFFFF = .error .unassignedOpcode ∧
    decode 0x03000000 = .error .unassignedOpcode ∧ decode 0x24000000 = .error .unassignedOpcode ∧
    decode 0x36000000 = .error .unassignedOpcode ∧ decode 0x53000000 = .error .unassignedOpcode := by decide

theorem test_decode_mustBeZero :
    decode 0x30201001 = .error .mustBeZero ∧ decode 0x30201100 = .error .mustBeZero ∧
    decode 0x02711000 = .error .mustBeZero ∧ decode 0x2310F000 = .error .mustBeZero ∧
    decode 0x01410000 = .error .mustBeZero ∧ decode 0x014F0000 = .error .mustBeZero ∧
    decode 0x52201301 = .error .mustBeZero ∧ decode 0x52201380 = .error .mustBeZero := by decide

theorem test_decode_sameDestination :
    decode 0x52201200 = .error .sameDestination ∧ decode 0x52FFFF00 = .error .sameDestination := by decide

theorem test_decodeTableWord :
    decodeTableWord 32 0x52201300 = some (.divmod 2 3 0 1) ∧ decodeTableWord 32 0x52000000 = none ∧
    decodeTableWord 32 0x40000000 = some (.mul 0 0 0) := by decide

theorem test_encode : encode (.divmod 2 3 0 1) = 0x52201300 ∧ encode (.shli 1 0 33) = 0x22100021 := by decide

/-! ## One command, on the reference build or the small one (sections 2.1 to 2.6 of spec/95_test_vectors.md) -/

/-- V-LI-1: the high limbs are zeroed. -/
theorem test_li : regAfter (exec (.li 4 0xFFFF) (load Config.reference [0, 0, 0, 0, 2 ^ 100])) 4 = some 0xFFFF := by decide

/-- V-LI-4: with B = 12 the seed bits at and above B are dropped. -/
theorem test_li_narrow : regAfter (exec (.li 0 0xABCD) (load { W := 4, N := 3 } [])) 0 = some 0xBCD := by decide

/-- V-MOV-1. -/
theorem test_mov : regAfter (exec (.mov 7 1) (load Config.reference [0, 0x0123456789ABCDEF0011223344556677])) 7 =
    some 0x0123456789ABCDEF0011223344556677 := by decide

/-- S5, V-BITS-15: the source's example, destination equal to source. -/
theorem test_bits : regAfter (exec (.bits 0 0) (load Config.reference [0x746789abc34])) 0 = some 42 := by decide

/-- V-BITS-1 and V-BITS-10. -/
theorem test_bits_ends : regAfter (exec (.bits 1 0) (load Config.reference [0])) 1 = some 0 ∧
    regAfter (exec (.bits 1 0) (load Config.reference [2 ^ 127])) 1 = some 127 := by decide

/-- V-SH-9 and V-SH-14. -/
theorem test_shl : regAfter (exec (.shl 2 0 1) (load Config.reference [1, 127])) 2 = some (2 ^ 127) ∧
    regAfter (exec (.shl 1 1 1) (load Config.reference [0, 5])) 1 = some 0xA0 := by decide

/-- V-SH-12: the whole register is the count. -/
theorem test_shl_wide_count : regAfter (exec (.shl 2 0 1) (load Config.reference [0xABCD, 2 ^ 96 + 1])) 2 = some 0 := by
  decide

/-- V-SH-10 and V-SH-11: logical, and zero at a count of exactly B. -/
theorem test_shr : regAfter (exec (.shr 2 0 1) (load Config.reference [2 ^ 127, 127])) 2 = some 1 ∧
    regAfter (exec (.shr 2 0 1) (load Config.reference [0xABCD, 128])) 2 = some 0 := by decide

/-- V-SH-6 and V-SH-4. -/
theorem test_shli : regAfter (exec (.shli 1 0 33) (load Config.reference [0x180000001])) 1 = some 0x30000000200000000 ∧
    regAfter (exec (.shli 1 0 128) (load Config.reference [2 ^ 128 - 1])) 1 = some 0 := by decide

/-- V-SH-7 and V-SH-5. -/
theorem test_shri : regAfter (exec (.shri 1 0 33) (load Config.reference [0x30000000200000000])) 1 = some 0x180000001 ∧
    regAfter (exec (.shri 1 0 4095) (load Config.reference [2 ^ 128 - 1])) 1 = some 0 := by decide

/-- S2 and V-ADD-5. -/
theorem test_add : regAfter (exec (.add 2 0 1) (load Config.reference [0xffffffff, 0xffffffff])) 2 = some 0x1fffffffe ∧
    regAfter (exec (.add 2 0 1) (load Config.reference [2 ^ 128 - 1, 1])) 2 = some 0 := by decide

/-- V-SUB-5 and V-SUB-3. -/
theorem test_sub : regAfter (exec (.sub 2 0 1) (load Config.reference [5, 7])) 2 = some (2 ^ 128 - 2) ∧
    regAfter (exec (.sub 2 0 1) (load Config.reference [2 ^ 96, 1])) 2 = some (2 ^ 96 - 1) := by decide

/-- V-NEG-1, V-NEG-2 and V-NEG-3. -/
theorem test_neg : regAfter (exec (.neg 1 0) (load Config.reference [0])) 1 = some 0 ∧
    regAfter (exec (.neg 1 0) (load Config.reference [1])) 1 = some (2 ^ 128 - 1) ∧
    regAfter (exec (.neg 1 0) (load Config.reference [2 ^ 127])) 1 = some (2 ^ 127) := by decide

/-- The example of R132. -/
theorem test_not : regAfter (exec (.not 1 0) (load Config.reference [0x00000000FFFFFFFF0000FFFF12345678])) 1 =
    some 0xFFFFFFFF00000000FFFF0000EDCBA987 := by decide

/-- V-INC-1 and V-INC-2. -/
theorem test_inc : regAfter (exec (.inc 1 0) (load Config.reference [2 ^ 96 - 1])) 1 = some (2 ^ 96) ∧
    regAfter (exec (.inc 1 0) (load Config.reference [2 ^ 128 - 1])) 1 = some 0 := by decide

/-- V-DEC-1 and V-DEC-2. -/
theorem test_dec : regAfter (exec (.dec 1 0) (load Config.reference [2 ^ 96])) 1 = some (2 ^ 96 - 1) ∧
    regAfter (exec (.dec 1 0) (load Config.reference [0])) 1 = some (2 ^ 128 - 1) := by decide

/-- S3 and V-MUL-6. -/
theorem test_mul : regAfter (exec (.mul 2 0 1) (load Config.reference [0xff45d391f11421ae, 0xff4b9c63cbd74d45])) 2 =
      some 0xfe91f3256b157e40e77a68c04bb069e6 ∧
    regAfter (exec (.mul 2 0 1) (load Config.reference [2 ^ 128 - 1, 2 ^ 128 - 1])) 2 = some 1 := by decide

/-- V-DIV-9. -/
theorem test_div : regAfter (exec (.div 2 0 1)
    (load Config.reference [0x0123456789ABCDEFFEDCBA9876543210, 0xFEDCBA987])) 2 = some 0x00124924924998D0F98FAF4B := by
  decide

/-- V-DIV-10: a zero divisor. -/
theorem test_div_by_zero : recordAfter (exec (.div 2 0 1) (load Config.reference [100, 0, 9])) =
      some (some .error, 0x00000011, 0x50201000) ∧
    regAfter (exec (.div 2 0 1) (load Config.reference [100, 0, 9])) 2 = some 9 := by decide

/-- S4. -/
theorem test_mod : regAfter (exec (.mod 2 0 1) (load Config.reference [0xff4b9c63cbd74d45, 0xff45d391f11421ae])) 2 =
    some 0x5c8d1dac32b97 := by decide

/-- V-DIV-10: the command word in EINFO is MOD's. -/
theorem test_mod_by_zero : recordAfter (exec (.mod 2 0 1) (load Config.reference [100, 0])) =
    some (some .error, 0x00000011, 0x51201000) := by decide

/-- V-DIV-16 and V-DIV-17: destinations equal to the sources, straight and crossed. -/
theorem test_divmod : regAfter (exec (.divmod 0 1 0 1) (load Config.reference [1000, 33])) 0 = some 30 ∧
    regAfter (exec (.divmod 0 1 0 1) (load Config.reference [1000, 33])) 1 = some 10 ∧
    regAfter (exec (.divmod 1 0 0 1) (load Config.reference [1000, 33])) 1 = some 30 ∧
    regAfter (exec (.divmod 1 0 0 1) (load Config.reference [1000, 33])) 0 = some 10 := by decide

/-- V-DIV-20: an illegal word with a zero divisor. -/
theorem test_illegal_wins : recordAfter (step (issued [5, 0] 0x52001000)) = some (some .error, 0x00000021, 0x52001000) := by
  decide

/-! ## The ports (section 2.8) -/

/-- Line 7: a write to a hole. -/
theorem test_limb_write_hole :
    recordAfter (step { load Config.reference [] with script := [.limbWrite 15 4 1] }) =
      some (some .error, 0x00000031, 0x40000F04) := by decide

/-- Line 8, and the example of R42 (limb 1 of w3). -/
theorem test_limb_read :
    recordAfter (step { load Config.reference [] with script := [.limbRead 3 4] }) =
      some (some .error, 0x00000031, 0x00000304) ∧
    (load Config.reference [0, 0, 0, 0x0000000100000000FFFFFFFF00000002]).limbVal 3 1 = 0xFFFFFFFF := by decide

/-- The example of R43. -/
theorem test_limb_write :
    regAfter (step { load Config.reference [] with script := [.limbWrite 5 2 0xDEADBEEF] }) 5 =
      some 0x00000000DEADBEEF0000000000000000 := by decide

/-- Lines 11 to 14. -/
theorem test_bad_control :
    recordAfter (step { load Config.reference [] with script := [.ctlWrite 1 0x1234] }) =
      some (some .error, 0x00000031, 0xC0000001) ∧
    recordAfter (step { load Config.reference [] with script := [.ctlRead 2] }) =
      some (some .error, 0x00000031, 0x80000002) ∧
    recordAfter (step { load Config.reference [] with script := [.ctlRead 3] }) =
      some (some .error, 0x00000031, 0x80000003) ∧
    recordAfter (step { load Config.reference [] with script := [.ctlWrite 3 5] }) =
      some (some .error, 0x00000031, 0xC0000003) := by decide

/-- Lines 15 and 16. -/
theorem test_status_write :
    recordAfter (step { load Config.reference [] with err := true, cause := 3, einfo := 0xC0000003, script := [.ctlWrite 0 0xFFFFFFFE] }) =
      some (some .okay, 0x00000031, 0xC0000003) ∧
    recordAfter (step { load Config.reference [] with err := true, cause := 3, einfo := 0xC0000003, script := [.ctlWrite 0 0xFFFFFFFF] }) =
      some (some .okay, 0x00000000, 0x00000000) := by decide

/-- The first command after reset: the placed word runs. -/
theorem test_first_command : regAfter (step (State.reset.withFetchWord 32 0x01F0FFFF)) 15 = some 0xFFFF := by decide

/-! ## The units, on the small build (traces of R149 and R169) and at the carries of C1 -/

theorem test_multiplier_trace : val (multiplier (W := 8) (N := 2) (by decide) (wide 0x12AB) (wide 0xFFCD)) = 0x47EF := by
  decide

theorem test_divider_trace :
    (divider (W := 8) (N := 2) (by decide) (wide 200) (wide 7)).map (fun p => (val p.1, val p.2)) = some (28, 4) := by decide

theorem test_adder_ripple : val (adder (W := 32) (N := 4) (wide (2 ^ 96 - 1)) (wide 1)) = 2 ^ 96 := by decide

/-! ## Witnesses: concrete states and operands that meet the hypotheses of the obligations -/

/-- Obligations.LegalWordIsTheEncodingOfItsCommand, StepRunsTheDecodedCommand. -/
theorem witness_decoded_command : (issued [1, 2] 0x30201000).script = .ctlWrite 2 0x30201000 :: [] ∧
    decode 0x30201000 = .ok (.add 2 0 1) := ⟨rfl, by decide⟩

/-- Obligations.WordSelectsRowByMatchAndMask, both directions, on the row with the extra condition. -/
theorem witness_table_row : ⟨"DIVMOD", 0x52000000, 0xFF0000FF⟩ ∈ opcodeTable ∧
    (0x52201300 : Word32) &&& 0xFF0000FF = 0x52000000 ∧ rdField 0x52201300 ≠ rrField 0x52201300 := by decide

/-- Obligations.WordIsIllegalExactlyByTheThreeClauses: an illegal word issued, one for each clause. -/
theorem witness_illegal_word : (issued [] 0).script = .ctlWrite 2 0 :: [] ∧ decode 0 = .error .unassignedOpcode ∧
    (0x30201001 : Word32) &&& mustBeZeroBits (opField 0x30201001) ≠ 0 ∧
    opField 0x52201200 = 0x52 ∧ rdField 0x52201200 = rrField 0x52201200 := ⟨rfl, by decide, by decide, by decide, by decide⟩

/-- Obligations.IllegalWordWinsOverZeroDivisor: words of both kinds, the divisor register zero. -/
theorem witness_illegal_wins : (issued [5, 0] 0x52001000).script = .ctlWrite 2 0x52001000 :: [] ∧
    opField 0x52001000 = 0x52 ∧ rdField 0x52001000 = rrField 0x52001000 ∧
    opField 0x50201001 = 0x50 ∧ field 0x50201001 11 0 ≠ 0 := ⟨rfl, by decide, by decide, by decide, by decide⟩

/-- Obligations.IdleBlockStaysUnchanged. -/
theorem witness_idle : State.reset.script = [] := rfl

/-- The encoding clauses of the command statements: a word of the opcode with its zero bits zero, and one without. -/
theorem witness_encoding_clauses :
    (opField 0x30201000 = 0x30 ∧ field 0x30201000 11 0 = 0 ∧ opField 0x30201001 = 0x30 ∧ field 0x30201001 11 0 ≠ 0) ∧
    (opField 0x02710000 = 0x02 ∧ field 0x02710000 15 0 = 0 ∧ opField 0x02711000 = 0x02 ∧ field 0x02711000 15 0 ≠ 0) ∧
    (opField 0x22100021 = 0x22 ∧ field 0x22100021 15 12 = 0 ∧ opField 0x22101021 = 0x22 ∧ field 0x22101021 15 12 ≠ 0) ∧
    (opField 0x0140FFFF = 0x01 ∧ field 0x0140FFFF 19 16 = 0 ∧ opField 0x01410000 = 0x01 ∧ field 0x01410000 19 16 ≠ 0) ∧
    (opField 0x52201300 = 0x52 ∧ field 0x52201300 7 0 = 0 ∧ rdField 0x52201300 ≠ rrField 0x52201300 ∧
      field 0x52201380 7 0 ≠ 0) := by decide

/-- Obligations.Shl… and Shr…: counts B - 1 and B. -/
theorem witness_shift_counts : (load small [0x81C3, 15, 16]).regVal 1 < small.B ∧
    small.B ≤ (load small [0x81C3, 15, 16]).regVal 2 := by decide

/-- Obligations.Shli… and Shri…: immediates B - 1 and B of the reference build. -/
theorem witness_shift_immediates : (127 : BitVec 12).toNat < Config.reference.B ∧ Config.reference.B ≤ (128 : BitVec 12).toNat := by
  decide

/-- Obligations.Bits…: a nonzero and a zero register. -/
theorem witness_bits : (load small [0x00C8]).regVal 0 ≠ 0 ∧ (load small [0x00C8]).regVal 1 = 0 := by decide

/-- Obligations.Div…, Mod…, Divmod…, LegalCommandFailsExactlyOnZeroDivisor: a zero and a nonzero divisor. -/
theorem witness_divisors : (load small [200, 7]).regVal 1 ≠ 0 ∧ (load small [200, 7]).regVal 2 = 0 ∧
    (Instr.divmod 2 3 0 1).wellFormed = true ∧ divisorOf (.divmod 2 3 0 1) = some 1 := by decide

/-- Obligations.IssuedDivisionByZeroRecordsTheWordAsWritten: the DIV word of R176's example, w1 zero. -/
theorem witness_issued_division_by_zero : (issued [5, 0] 0x50201000).script = .ctlWrite 2 0x50201000 :: [] ∧
    decode 0x50201000 = .ok (.div 2 0 1) ∧ divisorOf (.div 2 0 1) = some 1 ∧ (issued [5, 0] 0x50201000).regVal 1 = 0 :=
  ⟨rfl, by decide, by decide, by decide⟩

/-- Obligations.CommandChangesOnlyItsDestinations: a register that is no destination. -/
theorem witness_frame : (5 : RegNum) ∉ (Instr.add 2 0 1).dests ∧
    ∃ t, exec (.add 2 0 1) (load small [200, 7]) = .next t := ⟨by decide, _, rfl⟩

/-- Obligations.MultiplierInAnyOrder…: an order other than the reference one. -/
theorem witness_product_order : (productOrder 2).reverse.Perm (productOrder 2) ∧ (productOrder 2).reverse ≠ productOrder 2 :=
  ⟨List.reverse_perm _, by decide⟩

/-- Obligations.DividerLoop… and DivisionLaws. -/
theorem witness_divider : val (wide 7 : Wide 8 2) ≠ 0 ∧ val (wide 7 : Wide 8 2) ≤ val (wide 200 : Wide 8 2) ∧
    val (wide 1 : Wide 8 2) < val (wide 2 : Wide 8 2) ∧ divmod (wide 200 : Wide 8 2) (wide 7) = some (wide 28, wide 4) := by
  decide

/-- Obligations.BitScan…: a nonzero value and a nonzero limb; Obligations.Shifter…: top bits that are zero, and not. -/
theorem witness_bits_of_values : val (wide 0x80 : Wide 8 2) ≠ 0 ∧ (0x01#8 : Limb 8) ≠ 0 ∧
    shr (shl (wide 0x00C8 : Wide 8 2) 8) 8 = wide 0x00C8 ∧ shr (shl (wide 0x01C8 : Wide 8 2) 8) 8 ≠ wide 0x01C8 := by decide

/-- Obligations.LimbRead…, LimbWrite…, LimbReadReturnsTheLatestWrite: limb indices N - 1 and N. -/
theorem witness_limb_access :
    ({ load small [] with script := [.limbWrite 15 1 0xAB, .limbRead 15 1] } : State).script =
      .limbWrite 15 1 0xAB :: .limbRead 15 1 :: [] ∧
    ({ load small [] with script := [.limbRead 15 1] } : State).script = .limbRead 15 1 :: [] ∧
    (1 : BitVec 8).toNat < small.N ∧ small.N ≤ (2 : BitVec 8).toNat := ⟨rfl, rfl, by decide, by decide⟩

/-- Obligations.ControlReads…, ForbiddenControlAccesses…, StatusWrite…: each address, and data with bit 0 set and clear. -/
theorem witness_control_access :
    ({ State.reset with script := [.ctlRead 0] } : State).script = .ctlRead 0 :: [] ∧
    ({ State.reset with script := [.ctlRead 1] } : State).script = .ctlRead 1 :: [] ∧
    ({ State.reset with script := [.ctlRead 2] } : State).script = .ctlRead 2 :: [] ∧
    ({ State.reset with script := [.ctlRead 3] } : State).script = .ctlRead 3 :: [] ∧
    ({ State.reset with script := [.ctlWrite 1 7] } : State).script = .ctlWrite 1 7 :: [] ∧
    ({ State.reset with script := [.ctlWrite 3 7] } : State).script = .ctlWrite 3 7 :: [] ∧
    ({ State.reset with script := [.ctlWrite 0 7] } : State).script = .ctlWrite 0 7 :: [] ∧
    (7 : Word32).getLsbD 0 = true ∧ (6 : Word32).getLsbD 0 = false := ⟨rfl, rfl, rfl, rfl, rfl, rfl, rfl, by decide, by decide⟩

/-- Obligations.ResetTransactionLeads…, TransactionEnds…: a reset transaction. -/
theorem witness_reset_transaction :
    ({ load small [1] with script := [.reset] } : State).script = .reset :: [] := rfl

/-- Obligations.EveryStepKeeps…, ErrStaysSet…, RegisterKeepsItsValue…, ErrorRecordInfluences…, SignedParameter…: a consistent
state with an error recorded and a step that goes on, changing nothing of w0. -/
theorem witness_step : ({ issued [5, 0] 0x50201000 with err := true, cause := 3, einfo := 7 } : State).errorRecordOk ∧
    ∃ t, step { issued [5, 0] 0x50201000 with err := true, cause := 3, einfo := 7 } = .next t ∧ t.regVal 0 = 5 := by
  refine ⟨by simp [State.errorRecordOk], _, rfl, ?_⟩
  decide

end Sys2Proof.Tests
end

/-! PROOFS. How a command and a transaction end (R17, R18, R192, R196), what runs keep (R6, R200), and that no step
reads SIGNED (R8). -/

namespace Sys2Proof.Proofs

open Sys2Proof.Machine Sys2Proof.Laws

/-! ## How a command ends -/

/-- A well-formed command with a zero divisor has the DIVZERO entry as its whole effect (R192, R196). -/
theorem exec_of_zero_divisor {i : Instr} {s : State} {rb : RegNum} (hw : i.wellFormed = true)
    (hd : divisorOf i = some rb) (h0 : s.regVal rb = 0) : exec i s = .next (s.raise .divZero (encode i) none) := by
  have hdiv (c : Word32) (ra : RegNum) (write) : s.division c ra rb write = s.raise .divZero c none := by
    rcases division_cases s c ra rb write with ⟨-, h⟩ | ⟨hne, -⟩
    · exact h
    · exact absurd h0 hne
  cases i with
  | div rd ra rb' => cases hd; rw [exec, execDiv, hdiv]
  | mod rd ra rb' => cases hd; rw [exec, execMod, hdiv]
  | divmod rd rr ra rb' =>
    cases hd
    rw [exec, execDivmod, if_neg (of_decide_eq_true hw), hdiv]
  | _ => cases hd

/-- A well-formed command without a zero divisor answers OKAY and leaves the error record alone (R18). -/
theorem exec_okay_of_nonzero_divisor {i : Instr} {s : State} (hw : i.wellFormed = true)
    (hd : ∀ rb, divisorOf i = some rb → s.regVal rb ≠ 0) :
    ∃ t, exec i s = .next t ∧ t.reply = some ⟨.okay, none⟩ ∧ t.err = s.err ∧ t.cause = s.cause ∧ t.einfo = s.einfo := by
  have hdiv (c : Word32) (ra rb : RegNum) (write) (hrb : divisorOf i = some rb) :
      ∃ q r, s.division c ra rb write = write q r := by
    rcases division_cases s c ra rb write with ⟨h0, -⟩ | ⟨-, q, r, h, -⟩
    · exact absurd h0 (hd rb hrb)
    · exact ⟨q, r, h⟩
  cases i with
  | div rd ra rb =>
    obtain ⟨q, r, h⟩ := hdiv (encode (.div rd ra rb)) ra rb (fun q _ => s.commit rd q) rfl
    exact ⟨s.commit rd q, by rw [exec, execDiv, h], rfl, rfl, rfl, rfl⟩
  | mod rd ra rb =>
    obtain ⟨q, r, h⟩ := hdiv (encode (.mod rd ra rb)) ra rb (fun _ r => s.commit rd r) rfl
    exact ⟨s.commit rd r, by rw [exec, execMod, h], rfl, rfl, rfl, rfl⟩
  | divmod rd rr ra rb =>
    obtain ⟨q, r, h⟩ := hdiv (encode (.divmod rd rr ra rb)) ra rb (fun q r => (s.setReg rd q).commit rr r) rfl
    exact ⟨(s.setReg rd q).commit rr r, by rw [exec, execDivmod, if_neg (of_decide_eq_true hw), h], rfl, rfl, rfl, rfl⟩
  | _ => exact ⟨_, rfl, rfl, rfl, rfl, rfl⟩

/-- Settles O25: DIVZERO for a zero divisor, OKAY otherwise. -/
theorem legalCommandFailsExactlyOnZeroDivisor : Obligations.LegalCommandFailsExactlyOnZeroDivisor := by
  intro i s hw
  by_cases hz : ∃ rb, divisorOf i = some rb ∧ s.regVal rb = 0
  · obtain ⟨rb, hd, h0⟩ := hz
    exact ⟨_, exec_of_zero_divisor hw hd h0, fun _ => ⟨rfl, rfl, rfl, rfl⟩, fun hne => absurd h0 (hne rb hd)⟩
  · have hne : ∀ rb, divisorOf i = some rb → s.regVal rb ≠ 0 := fun rb hd h0 => hz ⟨rb, hd, h0⟩
    obtain ⟨t, ht, hokay⟩ := exec_okay_of_nonzero_divisor hw hne
    exact ⟨t, ht, fun h => absurd h hz, fun _ => hokay⟩

/-! ## How a transaction ends -/

/-- The two states that a transaction other than reset can lead to: OKAY, with the error record kept where `keeps`
holds, or the error entry. Build and script are the same in either. -/
def EndsOkayOrRaised (s t : State) (keeps : Prop) : Prop :=
  (∃ d, t.reply = some ⟨.okay, d⟩ ∧ t.cfg = s.cfg ∧ HEq t.script s.script ∧
    (keeps → t.err = s.err ∧ t.cause = s.cause ∧ t.einfo = s.einfo)) ∨
  ∃ c info p, t = s.raise c info p

theorem EndsOkayOrRaised.of_raise (s : State) (c : Cause) (info : Word32) (p : Option Port) (keeps : Prop) :
    EndsOkayOrRaised s (s.raise c info p) keeps := .inr ⟨c, info, p, rfl⟩

theorem EndsOkayOrRaised.of_okay (s : State) (d : Option (PortData s.cfg.W)) (keeps : Prop) :
    EndsOkayOrRaised s (s.okay d) keeps := .inl ⟨d, rfl, rfl, .rfl, fun _ => ⟨rfl, rfl, rfl⟩⟩

theorem EndsOkayOrRaised.cfg_script {s t : State} {keeps : Prop} (h : EndsOkayOrRaised s t keeps) :
    t.cfg = s.cfg ∧ HEq t.script s.script := by
  rcases h with ⟨-, -, hc, hs, -⟩ | ⟨c, info, p, rfl⟩
  · exact ⟨hc, hs⟩
  · exact ⟨rfl, .rfl⟩

theorem exec_ends (i : Instr) (s : State) (keeps : Prop) : ∃ t, exec i s = .next t ∧ EndsOkayOrRaised s t keeps := by
  rcases exec_cases i s with ⟨rd, y, -, h⟩ | ⟨rd, rr, q, r, -, -, h⟩ | ⟨c, h⟩
  · exact ⟨_, h, .inl ⟨none, rfl, rfl, .rfl, fun _ => ⟨rfl, rfl, rfl⟩⟩⟩
  · exact ⟨_, h, .inl ⟨none, rfl, rfl, .rfl, fun _ => ⟨rfl, rfl, rfl⟩⟩⟩
  · exact ⟨_, h, .of_raise ..⟩

theorem issue_ends (s : State) (c : Word32) (keeps : Prop) : ∃ t, issue s c = .next t ∧ EndsOkayOrRaised s t keeps := by
  rcases issue_cases s c with ⟨i, -, h⟩ | ⟨e, -, h⟩
  · rw [h]
    exact exec_ends i s keeps
  · exact ⟨_, h, .of_raise ..⟩

/-- A write of STATUS keeps the error record only where bit 0 of its data is 0, so only n ≠ 0 promises to keep it. -/
theorem ctlWrite_ends (s : State) (n : BitVec 2) (v : Word32) :
    ∃ t, ctlWrite s n v = .next t ∧ EndsOkayOrRaised s t (n ≠ 0) := by
  rcases ctlWrite_cases s n v with ⟨h0, h⟩ | ⟨-, h⟩ | ⟨-, h⟩
  · refine ⟨_, h, ?_⟩
    rcases writeStatus_cases s v with ⟨-, hv⟩ | ⟨-, hv⟩
    · rw [hv]
      exact .inl ⟨none, rfl, rfl, .rfl, fun hn => absurd h0 hn⟩
    · rw [hv]
      exact .of_okay ..
  · rw [h]
    exact issue_ends s v _
  · exact ⟨_, h, .of_raise ..⟩

/-- Every transaction answers a next state: the reset state, or one of the two ends (R17, R196, R197). -/
theorem perform_ends (s : State) (tr : Transaction s.cfg.W) : ∃ t, perform s tr = .next t ∧
    ((tr = .reset ∧ t = s.doReset) ∨ EndsOkayOrRaised s t (∀ v, tr ≠ .ctlWrite 0 v)) := by
  cases tr with
  | limbWrite r i v =>
    refine ⟨_, rfl, .inr ?_⟩
    rcases limbWrite_cases s r i v with ⟨-, h⟩ | ⟨-, h⟩
    · rw [h]
      exact .inl ⟨none, rfl, rfl, .rfl, fun _ => ⟨rfl, rfl, rfl⟩⟩
    · rw [h]
      exact .of_raise ..
  | limbRead r i =>
    refine ⟨_, rfl, .inr ?_⟩
    rcases limbRead_cases s r i with ⟨-, h⟩ | ⟨-, h⟩
    · rw [h]
      exact .of_okay ..
    · rw [h]
      exact .of_raise ..
  | ctlWrite n v =>
    obtain ⟨t, h, hends⟩ := ctlWrite_ends s n v
    refine ⟨t, h, .inr (hends.imp_left ?_)⟩
    rintro ⟨d, hr, hc, hs, hk⟩
    exact ⟨d, hr, hc, hs, fun hne => hk fun h0 => hne v (by rw [h0])⟩
  | ctlRead n =>
    refine ⟨_, rfl, .inr ?_⟩
    rcases ctlRead_cases s n with ⟨-, h⟩ | ⟨-, h⟩ | ⟨-, h⟩
    · rw [h]
      exact .of_okay ..
    · rw [h]
      exact .of_okay ..
    · rw [h]
      exact .of_raise ..
  | reset => exact ⟨_, rfl, .inl ⟨rfl, rfl⟩⟩

/-- Settles O54: the ends of `perform`, in the state without the transaction. -/
theorem transactionEndsOkayOrInTheErrorEntry : Obligations.TransactionEndsOkayOrInTheErrorEntry := by
  intro s tr rest hs
  obtain ⟨t, ht, hends⟩ := perform_ends { s with script := rest } tr
  refine ⟨t, by rw [step_cons s tr rest hs, ht], ?_⟩
  rcases hends with hreset | ⟨d, hr, hc, -, hk⟩ | hraised
  · exact .inl hreset
  · refine .inr (.inl ⟨d, hr, hc, ?_⟩)
    by_cases hv : ∃ v, tr = .ctlWrite 0 v
    · exact .inl hv
    · exact .inr (hk (not_exists.mp hv))
  · exact .inr (.inr hraised)

/-! ## Runs -/

/-- Every step answers a next state of the same build, with the first transaction of the script consumed. -/
theorem step_cfg_script (s : State) : ∃ t, step s = .next t ∧ t.cfg = s.cfg ∧ HEq t.script s.script.tail := by
  cases hs : s.script with
  | nil => exact ⟨s, step_nil s hs, rfl, heq_of_eq hs⟩
  | cons tr rest =>
    obtain ⟨t, ht, hends⟩ := perform_ends { s with script := rest } tr
    refine ⟨t, by rw [step_cons s tr rest hs, ht], ?_⟩
    rcases hends with ⟨-, rfl⟩ | hends
    · exact ⟨rfl, .rfl⟩
    · exact hends.cfg_script

theorem drop_heq {c c' : Config} (hc : c = c') {l : List (Transaction c.W)} {l' : List (Transaction c'.W)}
    (hl : HEq l l') (k : Nat) : HEq (l.drop k) (l'.drop k) := by
  subst hc
  rw [eq_of_heq hl]

/-- Settles O59, by induction on the number of steps. -/
theorem everyRunGoesOnAndConsumesItsScript : Obligations.EveryRunGoesOnAndConsumesItsScript := by
  intro k
  induction k with
  | zero => exact fun s => ⟨s, rfl, rfl, .rfl⟩
  | succ k ih =>
    intro s
    obtain ⟨u, hu, huc, hus⟩ := step_cfg_script s
    obtain ⟨t, ht, htc, hts⟩ := ih u
    refine ⟨t, by rw [run_succ k hu, ht], htc.trans huc, hts.trans ?_⟩
    rw [← List.drop_tail]
    exact drop_heq huc hus k

/-! ## SIGNED -/

/-- The state with another value of SIGNED. -/
def withSigned (s : State) (b : Bool) : State := { s with cfg := { s.cfg with signed := b } }

theorem division_withSigned (s : State) (b : Bool) (c : Word32) (ra rb : RegNum)
    (write : Wide s.cfg.W s.cfg.N → Wide s.cfg.W s.cfg.N → State) :
    (withSigned s b).division c ra rb (fun q r => withSigned (write q r) b) =
      withSigned (s.division c ra rb write) b := by
  have hdiv : divmod ((withSigned s b).reg ra) ((withSigned s b).reg rb) = divmod (s.reg ra) (s.reg rb) := rfl
  rw [State.division, State.division, hdiv]
  cases divmod (s.reg ra) (s.reg rb) <;> rfl

theorem exec_withSigned {i : Instr} {s t : State} (b : Bool) (h : exec i s = .next t) :
    exec i (withSigned s b) = .next (withSigned t b) := by
  cases i with
  | div rd ra rb =>
    cases h
    exact congrArg Host.Outcome.next (division_withSigned s b _ ra rb fun q _ => s.commit rd q)
  | mod rd ra rb =>
    cases h
    exact congrArg Host.Outcome.next (division_withSigned s b _ ra rb fun _ r => s.commit rd r)
  | divmod rd rr ra rb =>
    cases h
    rw [exec, execDivmod]
    split
    · rfl
    · exact congrArg Host.Outcome.next
        (division_withSigned s b _ ra rb fun q r => (s.setReg rd q).commit rr r)
  | _ => cases h; rfl

theorem issue_withSigned {s t : State} {c : Word32} (b : Bool) (h : issue s c = .next t) :
    issue (withSigned s b) c = .next (withSigned t b) := by
  rw [issue] at h ⊢
  cases hd : decode c with
  | ok i =>
    rw [hd] at h
    exact exec_withSigned b h
  | error e =>
    rw [hd] at h
    cases h
    rfl

theorem ctlWrite_withSigned {s t : State} {n : BitVec 2} {v : Word32} (b : Bool) (h : ctlWrite s n v = .next t) :
    ctlWrite (withSigned s b) n v = .next (withSigned t b) := by
  rw [ctlWrite] at h ⊢
  split_ifs at h ⊢
  · cases h
    simp only [State.writeStatus]
    split <;> rfl
  · exact issue_withSigned b h
  · cases h
    rfl

theorem limbWrite_withSigned (s : State) (b : Bool) (r : RegNum) (i : BitVec 8) (v : Limb s.cfg.W) :
    (withSigned s b).limbWrite r i v = withSigned (s.limbWrite r i v) b := by
  simp only [State.limbWrite, apply_ite (withSigned · b)]
  rfl

theorem limbRead_withSigned (s : State) (b : Bool) (r : RegNum) (i : BitVec 8) :
    (withSigned s b).limbRead r i = withSigned (s.limbRead r i) b := by
  simp only [State.limbRead, apply_ite (withSigned · b)]
  rfl

theorem ctlRead_withSigned (s : State) (b : Bool) (n : BitVec 2) :
    (withSigned s b).ctlRead n = withSigned (s.ctlRead n) b := by
  simp only [State.ctlRead, apply_ite (withSigned · b)]
  rfl

theorem perform_withSigned {s t : State} {tr : Transaction s.cfg.W} (b : Bool) (h : perform s tr = .next t) :
    perform (withSigned s b) tr = .next (withSigned t b) := by
  cases tr with
  | limbWrite r i v =>
    cases h
    exact congrArg Host.Outcome.next (limbWrite_withSigned s b r i v)
  | limbRead r i =>
    cases h
    exact congrArg Host.Outcome.next (limbRead_withSigned s b r i)
  | ctlWrite n v => exact ctlWrite_withSigned b h
  | ctlRead n =>
    cases h
    exact congrArg Host.Outcome.next (ctlRead_withSigned s b n)
  | reset => cases h; rfl

/-- Settles O58: SIGNED is passed on by every transaction, and an idle step keeps it. -/
theorem signedParameterChangesNothing : Obligations.SignedParameterChangesNothing := by
  intro s t b h
  change step (withSigned s b) = .next (withSigned t b)
  cases hs : s.script with
  | nil =>
    rw [step_nil s hs] at h
    cases h
    exact step_nil (withSigned s b) hs
  | cons tr rest =>
    rw [step_cons s tr rest hs] at h
    rw [step_cons (withSigned s b) tr rest hs]
    exact perform_withSigned (s := { s with script := rest }) b h

end Sys2Proof.Proofs

/-! PROOFS. The signed reading (R9, R10): sval and val agree modulo 2^B, and every operation of the add, subtract and
multiply units depends on its operands modulo 2^B only. -/

namespace Sys2Proof.Proofs

open Sys2Proof.Machine Sys2Proof.Laws

variable {W N : Nat}

/-- One more digit: the number of the lowest k + 1 limbs, from that of the lowest k (R12). -/
theorem val_mod_succ (x : Wide W N) (k : Nat) :
    val x % 2 ^ (W * (k + 1)) = val x % 2 ^ (W * k) + (limbAt x k).toNat * 2 ^ (W * k) := by
  rw [limbAt_toNat, Nat.mul_succ, Nat.pow_add, Nat.mod_mul, Nat.mul_comm (2 ^ (W * k))]

/-- The lowest N limbs are all of them. -/
theorem val_mod_all (x : Wide W N) : val x % 2 ^ (W * N) = val x :=
  Nat.mod_eq_of_lt (Nat.mul_comm N W ▸ val_lt x)

/-- The complement of every limb is the complement of the number (R127). -/
theorem val_notw_add (x : Wide W N) : val (notw x) + val x + 1 = 2 ^ (N * W) := by
  have key : ∀ k, k ≤ N → val (notw x) % 2 ^ (W * k) + val x % 2 ^ (W * k) + 1 = 2 ^ (W * k) := by
    intro k hk
    induction k with
    | zero => simp [Nat.mod_one]
    | succ k ih =>
      have hlimb : (limbAt (notw x) k).toNat + (limbAt x k).toNat + 1 = 2 ^ W := by
        have := (limbAt x k).isLt
        rw [limbAt_notw x k hk, BitVec.toNat_not]
        omega
      calc val (notw x) % 2 ^ (W * (k + 1)) + val x % 2 ^ (W * (k + 1)) + 1
          = (val (notw x) % 2 ^ (W * k) + val x % 2 ^ (W * k) + 1) +
              ((limbAt (notw x) k).toNat + (limbAt x k).toNat) * 2 ^ (W * k) := by
            rw [val_mod_succ, val_mod_succ]; ring
        _ = ((limbAt (notw x) k).toNat + (limbAt x k).toNat + 1) * 2 ^ (W * k) := by
            rw [ih (Nat.le_of_succ_le hk)]; ring
        _ = 2 ^ (W * (k + 1)) := by rw [hlimb, ← Nat.pow_add, Nat.mul_succ, Nat.add_comm]
  have h := key N (Nat.le_refl N)
  rwa [val_mod_all, val_mod_all, Nat.mul_comm W N] at h

/-- `wide` depends on its number modulo 2^B only (R12). -/
theorem wide_eq_of_modEq {u v : Int} (h : u ≡ v [ZMOD 2 ^ (N * W)]) : (wide u : Wide W N) = wide v := by
  apply val_inj
  rw [val_wide, val_wide]
  push_cast
  rw [h]

theorem val_wide_modEq (v : Int) : (val (wide v : Wide W N) : Int) ≡ v [ZMOD 2 ^ (N * W)] := by
  rw [val_wide, Int.toNat_of_nonneg (Int.emod_nonneg _ (by positivity))]
  push_cast
  exact Int.mod_modEq v _

/-- `neg` is the negation modulo 2^B (R126). -/
theorem neg_eq_wide (x : Wide W N) : neg x = wide (-(val x : Int)) := by
  have hnot : (val (notw x) : Int) + 1 = -val x + 2 ^ (N * W) := by
    have h : (val (notw x) : Int) + val x + 1 = 2 ^ (N * W) := mod_cast val_notw_add x
    omega
  apply wide_eq_of_modEq
  calc (val (notw x) : Int) + val (wOne : Wide W N)
      ≡ val (notw x) + 1 [ZMOD 2 ^ (N * W)] := (val_wide_modEq 1).add_left _
    _ = -val x + 2 ^ (N * W) := hnot
    _ ≡ -val x [ZMOD 2 ^ (N * W)] := Int.add_modEq_right

/-- Bit B - 1 says whether the number lies in the upper half (R9). -/
theorem bitAt_top_iff (hW : 0 < W) (hB : 0 < N * W) (x : Wide W N) :
    bitAt x (N * W - 1) = true ↔ 2 ^ (N * W - 1) ≤ val x := by
  have hlt : val x < 2 ^ (N * W - 1 + 1) := by
    rw [Nat.sub_add_cancel hB]
    exact val_lt x
  rw [bitAt_eq_testBit hW]
  constructor
  · exact fun h => Nat.ge_two_pow_of_testBit h
  · exact fun h => Nat.testBit_of_two_pow_le_and_two_pow_add_one_gt h hlt

theorem sval_modEq (x : Wide W N) : sval x ≡ val x [ZMOD 2 ^ (N * W)] := by
  rw [sval]
  split
  · exact Int.sub_modulus_modEq_iff.mpr rfl
  · exact Int.ModEq.refl _

/-- The range of the signed reading (R9). -/
theorem sval_bounds (hW : 0 < W) (hB : 0 < N * W) (x : Wide W N) :
    -(2 ^ (N * W - 1) : Int) ≤ sval x ∧ sval x < 2 ^ (N * W - 1) := by
  have htop := bitAt_top_iff hW hB x
  have hlt : (val x : Int) < 2 ^ (N * W) := mod_cast val_lt x
  have hpow : (2 : Int) ^ (N * W) = 2 * 2 ^ (N * W - 1) := (mul_pow_sub_one hB.ne' 2).symm
  have hpos : (0 : Int) < 2 ^ (N * W - 1) := by positivity
  rw [sval]
  split
  next h =>
    have : (2 : Int) ^ (N * W - 1) ≤ val x := mod_cast htop.mp h
    omega
  next h =>
    have : (val x : Int) < 2 ^ (N * W - 1) := mod_cast Nat.not_le.mp (mt htop.mpr h)
    omega

/-- Settles O42: the operations are `wide` of the unsigned result, and sval agrees with val modulo 2^B. -/
theorem signedReadingSharesTheDatapath : Obligations.SignedReadingSharesTheDatapath := by
  intro cfg x y
  obtain ⟨hlo, hhi⟩ := sval_bounds cfg.W_pos cfg.B_pos x
  have hx := (sval_modEq x).symm
  have hy := (sval_modEq y).symm
  refine ⟨hlo, hhi, ?_, ?_, ?_, ?_, ?_⟩
  · rw [wide_eq_of_modEq (sval_modEq x), wide_val]
  · exact wide_eq_of_modEq (hx.add hy)
  · exact wide_eq_of_modEq (hx.sub hy)
  · rw [neg_eq_wide]
    exact wide_eq_of_modEq hx.neg
  · exact wide_eq_of_modEq (hx.mul hy)

end Sys2Proof.Proofs

/-! PROOFS. The units that work from one end of the limbs to the other compute the value rules (R92, R95, R113, R122,
R125): each has an invariant about the number of the lowest k limbs, val(x) mod 2^(W × k). -/

namespace Sys2Proof.Proofs

open Sys2Proof.Machine Sys2Proof.Laws

variable {W N : Nat}

/-! ## Adder and subtractor -/

theorem bitLimb_toNat (hW : 0 < W) (c : Bool) : (bitLimb c : Limb W).toNat = c.toNat := by
  rw [bitLimb, BitVec.toNat_ofNat, Nat.mod_eq_of_lt]
  exact Nat.lt_of_le_of_lt c.toNat_le (Nat.one_lt_two_pow hW.ne')

/-- The wraparound comparison detects the carry of one limb addition (R122). -/
theorem add_carryOut (a b : Limb W) :
    (a + b).toNat + (carryOut (a + b) a).toNat * 2 ^ W = a.toNat + b.toNat := by
  have ha := a.isLt
  have hb := b.isLt
  rw [carryOut, BitVec.toNat_add]
  by_cases h : a.toNat + b.toNat < 2 ^ W
  · rw [Nat.mod_eq_of_lt h]
    simp
  · rw [Nat.mod_eq_sub_mod (Nat.not_lt.mp h), Nat.mod_eq_of_lt (by omega),
      decide_eq_true (by omega : a.toNat + b.toNat - 2 ^ W < a.toNat), Bool.toNat_true]
    omega

/-- The comparison of R125 detects the borrow of one limb subtraction. -/
theorem sub_borrowOut (a b : Limb W) :
    (a - b).toNat + b.toNat = a.toNat + (borrowOut (a - b) a).toNat * 2 ^ W := by
  have ha := a.isLt
  have hb := b.isLt
  rw [borrowOut, BitVec.toNat_sub]
  by_cases h : b.toNat ≤ a.toNat
  · rw [show 2 ^ W - b.toNat + a.toNat = a.toNat - b.toNat + 2 ^ W by omega, Nat.add_mod_right,
      Nat.mod_eq_of_lt (by omega)]
    simp [h]
  · rw [Nat.mod_eq_of_lt (by omega),
      decide_eq_true (by omega : 2 ^ W - b.toNat + a.toNat > a.toNat), Bool.toNat_true]
    omega

/-- The two carry detections of one limb are never both 1, so their OR is their sum (R122). -/
theorem carries_exclusive (hW : 0 < W) (a b : Limb W) (c : Bool) :
    ¬ (carryOut (a + b) a = true ∧ carryOut (a + b + bitLimb c) (a + b) = true) := by
  rintro ⟨h1, h2⟩
  have e1 := add_carryOut a b
  have e2 := add_carryOut (a + b) (bitLimb c)
  have hc := c.toNat_le
  rw [bitLimb_toNat hW, h2, Bool.toNat_true] at e2
  rw [h1, Bool.toNat_true] at e1
  have ha := a.isLt
  have hb := b.isLt
  omega

/-- The two borrow detections of one limb are never both 1 (R125). -/
theorem borrows_exclusive (hW : 0 < W) (a b : Limb W) (c : Bool) :
    ¬ (borrowOut (a - b) a = true ∧ borrowOut (a - b - bitLimb c) (a - b) = true) := by
  rintro ⟨h1, h2⟩
  have e1 := sub_borrowOut a b
  have e2 := sub_borrowOut (a - b) (bitLimb c)
  have hc := c.toNat_le
  rw [bitLimb_toNat hW, h2, Bool.toNat_true] at e2
  rw [h1, Bool.toNat_true] at e1
  have hb := b.isLt
  have hd := (a - b - bitLimb c).isLt
  omega

theorem toNat_or_of_exclusive {p q : Bool} (h : ¬ (p = true ∧ q = true)) : (p || q).toNat = p.toNat + q.toNat := by
  cases p <;> cases q <;> simp_all

/-- One position of the adder: sum limb and carry out hold the whole sum (R122). -/
theorem limb_fullAdd (hW : 0 < W) (l r : Wide W N) {k : Nat} (hk : k < N) :
    (limbAt (adder l r) k).toNat + (carryIn l r (k + 1)).toNat * 2 ^ W =
      (limbAt l k).toNat + (limbAt r k).toNat + (carryIn l r k).toNat := by
  rw [adder, limbAt_ofFn, dif_pos hk, carryIn, toNat_or_of_exclusive (carries_exclusive hW _ _ _), Nat.add_mul,
    ← add_carryOut (limbAt l k), ← bitLimb_toNat hW (carryIn l r k), Nat.add_right_comm,
    ← add_carryOut (limbAt l k + limbAt r k)]
  ring

/-- One position of the subtractor (R125). -/
theorem limb_fullSub (hW : 0 < W) (l r : Wide W N) {k : Nat} (hk : k < N) :
    (limbAt (subtractor l r) k).toNat + (limbAt r k).toNat + (borrowIn l r k).toNat =
      (limbAt l k).toNat + (borrowIn l r (k + 1)).toNat * 2 ^ W := by
  rw [subtractor, limbAt_ofFn, dif_pos hk, borrowIn, toNat_or_of_exclusive (borrows_exclusive hW _ _ _), Nat.add_mul,
    ← Nat.add_assoc, ← sub_borrowOut (limbAt l k), ← bitLimb_toNat hW (borrowIn l r k), Nat.add_right_comm,
    sub_borrowOut (limbAt l k - limbAt r k)]
  ring

/-- The adder's invariant: the lowest k limbs and the carry into limb k hold the sum of the lowest k limbs (R122). -/
theorem adder_invariant (hW : 0 < W) (l r : Wide W N) {k : Nat} (hk : k ≤ N) :
    val (adder l r) % 2 ^ (W * k) + (carryIn l r k).toNat * 2 ^ (W * k) =
      val l % 2 ^ (W * k) + val r % 2 ^ (W * k) := by
  induction k with
  | zero => simp [Nat.mod_one, carryIn]
  | succ k ih =>
    have hlimb := limb_fullAdd hW l r hk
    calc val (adder l r) % 2 ^ (W * (k + 1)) + (carryIn l r (k + 1)).toNat * 2 ^ (W * (k + 1))
        = val (adder l r) % 2 ^ (W * k) +
            ((limbAt (adder l r) k).toNat + (carryIn l r (k + 1)).toNat * 2 ^ W) * 2 ^ (W * k) := by
          rw [val_mod_succ, Nat.mul_succ, Nat.pow_add]; ring
      _ = (val (adder l r) % 2 ^ (W * k) + (carryIn l r k).toNat * 2 ^ (W * k)) +
            ((limbAt l k).toNat + (limbAt r k).toNat) * 2 ^ (W * k) := by
          rw [hlimb]; ring
      _ = val l % 2 ^ (W * (k + 1)) + val r % 2 ^ (W * (k + 1)) := by
          rw [ih (Nat.le_of_succ_le hk), val_mod_succ, val_mod_succ]; ring

/-- The subtractor's invariant (R125). -/
theorem subtractor_invariant (hW : 0 < W) (l r : Wide W N) {k : Nat} (hk : k ≤ N) :
    val (subtractor l r) % 2 ^ (W * k) + val r % 2 ^ (W * k) =
      val l % 2 ^ (W * k) + (borrowIn l r k).toNat * 2 ^ (W * k) := by
  induction k with
  | zero => simp [Nat.mod_one, borrowIn]
  | succ k ih =>
    have hlimb := limb_fullSub hW l r hk
    have hlow := ih (Nat.le_of_succ_le hk)
    have hpow : 2 ^ (W * (k + 1)) = 2 ^ W * 2 ^ (W * k) := by rw [Nat.mul_succ, Nat.add_comm, Nat.pow_add]
    rw [val_mod_succ, val_mod_succ, val_mod_succ, hpow]
    linear_combination hlow + 2 ^ (W * k) * hlimb

/-- The adder computes R121's sum; its last carry is discarded (R123). -/
theorem adder_eq_add (hW : 0 < W) (x y : Wide W N) : adder x y = add x y := by
  have h := adder_invariant hW x y (Nat.le_refl N)
  rw [val_mod_all, val_mod_all, val_mod_all, Nat.mul_comm W N] at h
  apply val_inj
  rw [val_add, ← h, Nat.add_mul_mod_self_right, Nat.mod_eq_of_lt (val_lt _)]

/-- The subtractor computes R124's difference. -/
theorem subtractor_eq_sub (hW : 0 < W) (x y : Wide W N) : subtractor x y = sub x y := by
  have h := subtractor_invariant hW x y (Nat.le_refl N)
  rw [val_mod_all, val_mod_all, val_mod_all, Nat.mul_comm W N] at h
  have hdiff : (val (subtractor x y) : Int) = val x - val y + (borrowIn x y N).toNat * 2 ^ (N * W) := by
    have : (val (subtractor x y) : Int) + val y = val x + (borrowIn x y N).toNat * 2 ^ (N * W) := mod_cast h
    omega
  rw [← wide_val (subtractor x y), sub, hdiff]
  exact wide_eq_of_modEq (Int.add_mul_modulus_modEq_iff.mpr rfl)

/-! ## Scan and comparator -/

/-- The spec's convention for a zero value is that of `Nat.log2` (R91). -/
theorem msb_eq_log2 (x : Wide W N) : msb x = Nat.log2 (val x) := by
  rw [msb]
  split
  next h => rw [h, Nat.log2_zero]
  next => rfl

theorem log2_add_mul_two_pow {a low n : Nat} (ha : a ≠ 0) (hlow : low < 2 ^ n) :
    Nat.log2 (low + a * 2 ^ n) = Nat.log2 a + n := by
  obtain ⟨hge, hlt⟩ := (Nat.log2_eq_iff ha).mp rfl
  have hpos : 0 < a * 2 ^ n := Nat.mul_pos (Nat.pos_of_ne_zero ha) (Nat.two_pow_pos n)
  refine (Nat.log2_eq_iff (by omega)).mpr ⟨?_, ?_⟩
  · calc 2 ^ (Nat.log2 a + n) = 2 ^ Nat.log2 a * 2 ^ n := Nat.pow_add ..
      _ ≤ a * 2 ^ n := Nat.mul_le_mul_right _ hge
      _ ≤ low + a * 2 ^ n := Nat.le_add_left ..
  · calc low + a * 2 ^ n < (a + 1) * 2 ^ n := by rw [Nat.succ_mul]; omega
      _ ≤ 2 ^ (Nat.log2 a + 1) * 2 ^ n := Nat.mul_le_mul_right _ hlt
      _ = 2 ^ (Nat.log2 a + n + 1) := by rw [← Nat.pow_add]; congr 1; omega

/-- The scan over the limbs below k finds the highest set bit of their number (R92). -/
theorem msbBelow_eq_log2 (x : Wide W N) {k : Nat} (hk : k ≤ N) : msbBelow x k = Nat.log2 (val x % 2 ^ (W * k)) := by
  induction k with
  | zero => simp [msbBelow, Nat.mod_one]
  | succ k ih =>
    rw [msbBelow, val_mod_succ]
    split
    next hne =>
      have hn : (limbAt x k).toNat ≠ 0 := fun h => hne (BitVec.eq_of_toNat_eq h)
      have hlog : Nat.log2 (limbAt x k).toNat < W := (Nat.log2_lt hn).mpr (limbAt x k).isLt
      obtain ⟨m, rfl⟩ := Nat.exists_eq_add_of_le hk
      have hsize : (k + 1 + m) * W = W * k + W + m * W := by ring
      rw [log2_add_mul_two_pow hn (Nat.mod_lt _ (Nat.two_pow_pos _)), clz, hsize,
        show k + 1 + m - 1 - k = m by omega]
      omega
    next heq =>
      rw [ih (Nat.le_of_succ_le hk), of_not_not heq]
      simp

/-- The scan unit computes R91's index. -/
theorem msbUnit_eq_msb (x : Wide W N) : msbUnit x = msb x := by
  rw [msbUnit, msbBelow_eq_log2 x (Nat.le_refl N), val_mod_all, msb_eq_log2]

/-- Where the top digits differ they decide the order. -/
theorem add_mul_lt_iff_of_ne {a b l m p : Nat} (hne : a ≠ b) (hl : l < p) (hm : m < p) :
    l + a * p < m + b * p ↔ a < b := by
  rcases Nat.lt_or_gt_of_ne hne with h | h
  · have : (a + 1) * p ≤ b * p := Nat.mul_le_mul_right p h
    rw [Nat.succ_mul] at this
    exact iff_of_true (by omega) h
  · have : (b + 1) * p ≤ a * p := Nat.mul_le_mul_right p h
    rw [Nat.succ_mul] at this
    exact iff_of_false (by omega) (by omega)

/-- The comparison of the limbs below k is that of their numbers (R95). -/
theorem ltuBelow_eq_decide (x y : Wide W N) (k : Nat) :
    ltuBelow x y k = decide (val x % 2 ^ (W * k) < val y % 2 ^ (W * k)) := by
  induction k with
  | zero => simp [ltuBelow, Nat.mod_one]
  | succ k ih =>
    rw [ltuBelow, val_mod_succ, val_mod_succ]
    split
    next hne =>
      have hn : (limbAt x k).toNat ≠ (limbAt y k).toNat := fun h => hne (BitVec.eq_of_toNat_eq h)
      exact decide_eq_decide.mpr
        (add_mul_lt_iff_of_ne hn (Nat.mod_lt _ (Nat.two_pow_pos _)) (Nat.mod_lt _ (Nat.two_pow_pos _))).symm
    next heq =>
      rw [ih, of_not_not heq]
      exact decide_eq_decide.mpr Nat.add_lt_add_iff_right.symm

/-- The comparator computes R95's order. -/
theorem ltuUnit_eq_ltu (x y : Wide W N) : ltuUnit x y = ltu x y := by
  rw [ltuUnit, ltuBelow_eq_decide, val_mod_all, val_mod_all, ltu]

theorem geuUnit_iff (x y : Wide W N) : geuUnit x y = true ↔ val y ≤ val x := by
  rw [geuUnit, ltuUnit_eq_ltu]
  exact geu_iff x y

/-! ## Shifter -/

/-- The bits of `shl` (R102, R107). -/
theorem bitAt_shl (hW : 0 < W) (x : Wide W N) (s : Nat) {k : Nat} (hk : k < N * W) :
    bitAt (shl x s) k = (decide (s ≤ k) && bitAt x (k - s)) := by
  rw [bitAt_eq_testBit hW, bitAt_eq_testBit hW]
  by_cases hs : s < N * W
  · rw [val_shl_of_lt x hs, Nat.testBit_mod_two_pow, decide_eq_true hk, Bool.true_and, Nat.testBit_mul_two_pow]
  · rw [shl_of_ge x (Nat.not_lt.mp hs), val_wZero, decide_eq_false (by omega), Nat.zero_testBit, Bool.false_and]

/-- The bits of `shr` (R103, R107). -/
theorem bitAt_shr (hW : 0 < W) (x : Wide W N) (s k : Nat) : bitAt (shr x s) k = bitAt x (k + s) := by
  by_cases hs : s < N * W
  · rw [bitAt_eq_testBit hW, bitAt_eq_testBit hW, val_shr_of_lt x hs, Nat.testBit_div_two_pow]
  · rw [shr_of_ge x (Nat.not_lt.mp hs), bitAt_of_ge hW x (k + s) (by omega), bitAt_eq_testBit hW, val_wZero,
      Nat.zero_testBit]

/-- Every bit index is a limb index and a bit index within a limb (R12). -/
theorem exists_limb_bit (hW : 0 < W) (k : Nat) : ∃ i j, j < W ∧ k = W * i + j :=
  ⟨k / W, k % W, Nat.mod_lt k hW, (Nat.div_add_mod k W).symm⟩

theorem bitAt_limb (x : Wide W N) (i : Nat) {j : Nat} (hj : j < W) : bitAt x (W * i + j) = (limbAt x i).getLsbD j := by
  rw [bitAt, Nat.mul_add_div (Nat.zero_lt_of_lt hj), Nat.div_eq_of_lt hj, Nat.mul_add_mod, Nat.mod_eq_of_lt hj,
    Nat.add_zero]

theorem limb_lt_of_bit_lt {i j : Nat} (h : W * i + j < N * W) : i < N :=
  Nat.lt_of_mul_lt_mul_left (Nat.lt_of_le_of_lt (Nat.le_add_right _ j) (Nat.mul_comm N W ▸ h))

/-- Stage 1 of the left shifter moves the bits up by q limbs (R104). -/
theorem bitAt_moveUp (hW : 0 < W) (x : Wide W N) (q : Nat) {k : Nat} (hk : k < N * W) :
    bitAt (moveUp x q) k = (decide (W * q ≤ k) && bitAt x (k - W * q)) := by
  obtain ⟨i, j, hj, rfl⟩ := exists_limb_bit hW k
  rw [bitAt_limb _ i hj, moveUp, limbAt_ofFn, dif_pos (limb_lt_of_bit_lt hk)]
  dsimp only
  split
  next hq =>
    obtain ⟨m, rfl⟩ := Nat.exists_eq_add_of_le hq
    have hsub : W * (q + m) + j - W * q = W * m + j := by rw [Nat.mul_add]; omega
    have hle : W * q ≤ W * (q + m) + j := by rw [Nat.mul_add]; omega
    rw [hsub, bitAt_limb _ m hj, decide_eq_true hle, Bool.true_and, Nat.add_sub_cancel_left]
  next hq =>
    have hlt : W * (i + 1) ≤ W * q := Nat.mul_le_mul_left W (Nat.not_le.mp hq)
    rw [Nat.mul_succ] at hlt
    rw [decide_eq_false (by omega), Bool.false_and]
    exact BitVec.getLsbD_zero

/-- Stage 2 of the left shifter moves the bits up by r within and across the limbs (R104). -/
theorem bitAt_crossUp (hW : 0 < W) (x : Wide W N) {r : Nat} (h0 : r ≠ 0) (hr : r < W) {k : Nat} (hk : k < N * W) :
    bitAt (crossUp x r h0 hr) k = (decide (r ≤ k) && bitAt x (k - r)) := by
  obtain ⟨i, j, hj, rfl⟩ := exists_limb_bit hW k
  rw [bitAt_limb _ i hj, crossUp, limbAt_ofFn, dif_pos (limb_lt_of_bit_lt hk)]
  simp only [limbShl, limbShr, BitVec.getLsbD_or, BitVec.getLsbD_shiftLeft, BitVec.getLsbD_ushiftRight]
  by_cases hrj : r ≤ j
  · rw [show W * i + j - r = W * i + (j - r) by omega, bitAt_limb _ i (by omega),
      BitVec.getLsbD_of_ge _ (W - r + j) (by omega)]
    simp [hj, hrj, Nat.le_add_left_of_le hrj]
  · cases i with
    | zero => simp [show j < r by omega]
    | succ i =>
      have hsub : W * (i + 1) + j - r = W * i + (W - r + j) := by rw [Nat.mul_succ]; omega
      have hle : r ≤ W * (i + 1) + j := by rw [Nat.mul_succ]; omega
      rw [hsub, bitAt_limb _ i (by omega)]
      simp [hle, show j < r by omega]

theorem limbAt_moveDown (x : Wide W N) (q i : Nat) : limbAt (moveDown x q) i = limbAt x (i + q) := by
  rw [moveDown, limbAt_ofFn]
  dsimp only
  split_ifs
  · rfl
  · exact (limbAt_of_ge x _ (by omega)).symm
  · exact (limbAt_of_ge x _ (by omega)).symm

/-- Stage 1 of the right shifter moves the bits down by q limbs (R105). -/
theorem bitAt_moveDown (hW : 0 < W) (x : Wide W N) (q k : Nat) : bitAt (moveDown x q) k = bitAt x (k + W * q) := by
  obtain ⟨i, j, hj, rfl⟩ := exists_limb_bit hW k
  rw [bitAt_limb _ i hj, limbAt_moveDown, show W * i + j + W * q = W * (i + q) + j by ring, bitAt_limb _ _ hj]

/-- Stage 2 of the right shifter moves the bits down by r within and across the limbs (R105). -/
theorem bitAt_crossDown (hW : 0 < W) (x : Wide W N) {r : Nat} (h0 : r ≠ 0) (hr : r < W) {k : Nat} (hk : k < N * W) :
    bitAt (crossDown x r h0 hr) k = bitAt x (k + r) := by
  obtain ⟨i, j, hj, rfl⟩ := exists_limb_bit hW k
  have hi : i < N := limb_lt_of_bit_lt hk
  have hupper : (if i + 1 ≤ N - 1 then limbAt x (i + 1) else 0) = limbAt x (i + 1) := by
    split
    · rfl
    · exact (limbAt_of_ge x _ (by omega)).symm
  rw [bitAt_limb _ i hj, crossDown, limbAt_ofFn, dif_pos hi]
  simp only [hupper, limbShl, limbShr, BitVec.getLsbD_or, BitVec.getLsbD_shiftLeft, BitVec.getLsbD_ushiftRight]
  by_cases hrj : j + r < W
  · rw [Nat.add_assoc, bitAt_limb _ i hrj]
    simp [show j < W - r by omega, Nat.add_comm]
  · have hadd : W * i + j + r = W * (i + 1) + (j - (W - r)) := by rw [Nat.mul_succ]; omega
    rw [hadd, bitAt_limb _ _ (by omega), BitVec.getLsbD_of_ge _ (r + j) (by omega)]
    simp [hj, show ¬ j < W - r by omega]

/-- The left shifter computes R102's value. -/
theorem shlUnit_eq_shl (hW : 0 < W) (x : Wide W N) (s : Nat) : shlUnit hW x s = shl x s := by
  by_cases hs : s < N * W
  · apply wide_ext_bit hW
    intro k hk
    have hdm := Nat.div_add_mod s W
    rw [bitAt_shl hW x s hk, shlUnit, if_pos hs]
    split
    next h0 =>
      rw [bitAt_moveUp hW x _ hk]
      rw [h0, Nat.add_zero] at hdm
      rw [hdm]
    next h0 =>
      rw [bitAt_crossUp hW _ h0 _ hk, bitAt_moveUp hW x _ (Nat.lt_of_le_of_lt (Nat.sub_le ..) hk), ← Bool.and_assoc,
        ← Bool.decide_and, Nat.sub_sub, Nat.add_comm (s % W), hdm]
      congr 2
      exact propext ⟨by omega, by omega⟩
  · rw [shlUnit, if_neg hs, shl_of_ge x (Nat.not_lt.mp hs)]

/-- The right shifter computes R103's value. -/
theorem shrUnit_eq_shr (hW : 0 < W) (x : Wide W N) (s : Nat) : shrUnit hW x s = shr x s := by
  by_cases hs : s < N * W
  · apply wide_ext_bit hW
    intro k hk
    have hdm := Nat.div_add_mod s W
    rw [bitAt_shr hW, shrUnit, if_pos hs]
    split
    next h0 =>
      rw [h0, Nat.add_zero] at hdm
      rw [bitAt_moveDown hW, hdm]
    next h0 =>
      rw [bitAt_crossDown hW _ h0 _ hk, bitAt_moveDown hW, Nat.add_assoc, Nat.add_comm (s % W), hdm]
  · rw [shrUnit, if_neg hs, shr_of_ge x (Nat.not_lt.mp hs)]

end Sys2Proof.Proofs

/-! PROOFS. The multiplier (R142 to R147): modulo 2^B, placing a product adds it at its weight, so the accumulation in
any order is the sum of all half-limb products, which is the product of the two numbers. -/

namespace Sys2Proof.Proofs

open Sys2Proof.Machine Sys2Proof.Laws

variable {W N : Nat}

/-! ## Half a limb: h = W / 2 (R142) -/

theorem two_pow_eq_half_mul_half (he : W % 2 = 0) : 2 ^ W = 2 ^ (W / 2) * 2 ^ (W / 2) := by
  rw [← Nat.pow_add]
  congr 1
  omega

theorem half_mul_two_mul (he : W % 2 = 0) (t : Nat) : W / 2 * (2 * t) = W * t := by
  rw [← Nat.mul_assoc, Nat.div_mul_cancel (Nat.dvd_of_mod_eq_zero he)]

theorem half_mul_two_mul_succ (he : W % 2 = 0) (t : Nat) : W / 2 * (2 * t + 1) = W * t + W / 2 := by
  rw [Nat.mul_succ, half_mul_two_mul he]

/-! ## Accumulation -/

/-- A multiple of a limb weight from N on vanishes modulo 2^B. -/
theorem mul_limb_weight_modEq_zero {i : Nat} (hi : N ≤ i) (c : Nat) : c * 2 ^ (W * i) ≡ 0 [MOD 2 ^ (N * W)] := by
  refine (Nat.modEq_zero_iff_dvd).mpr (Dvd.dvd.mul_left (Nat.pow_dvd_pow 2 ?_) c)
  rw [Nat.mul_comm N W]
  exact Nat.mul_le_mul_left W hi

/-- Replacing limb i changes the number by the difference at that limb's weight. -/
theorem val_setLimb_add (x : Wide W N) {i : Nat} (hi : i < N) (v : Limb W) :
    val (setLimb x i v) + (limbAt x i).toNat * 2 ^ (W * i) = val x + v.toNat * 2 ^ (W * i) := by
  have hmem : i ∈ Finset.range N := Finset.mem_range.mpr hi
  have hrest : ∑ j ∈ (Finset.range N).erase i, (limbAt (setLimb x i v) j).toNat * 2 ^ (W * j) =
      ∑ j ∈ (Finset.range N).erase i, (limbAt x j).toNat * 2 ^ (W * j) := by
    refine Finset.sum_congr rfl fun j hj => ?_
    rw [limbAt_setLimb x i j v hi, if_neg (Finset.ne_of_mem_erase hj).symm]
  rw [val_eq_sum, val_eq_sum x, ← Finset.add_sum_erase _ _ hmem, ← Finset.add_sum_erase _ _ hmem, hrest,
    limbAt_setLimb x i i v hi, if_pos rfl]
  ring

/-- `accadd` adds c at the weight of limb i, modulo 2^B, if its bound reaches limb N - 1 (R145). -/
theorem val_accAdd (hW : 0 < W) {fuel i : Nat} (hfuel : N ≤ i + fuel) (acc : Wide W N) (c : Limb W) :
    val (accAdd fuel acc i c) ≡ val acc + c.toNat * 2 ^ (W * i) [MOD 2 ^ (N * W)] := by
  induction fuel generalizing i acc c with
  | zero => exact ((mul_limb_weight_modEq_zero hfuel _).add_left _).symm
  | succ fuel ih =>
    rw [accAdd]
    split_ifs with hi hc
    · rw [hc]
      simp [Nat.ModEq]
    · have hset := val_setLimb_add acc hi (limbAt acc i + c)
      have hcarry := add_carryOut (limbAt acc i) c
      have hsum : val (setLimb acc i (limbAt acc i + c)) +
          (carryOut (limbAt acc i + c) (limbAt acc i)).toNat * 2 ^ (W * (i + 1)) = val acc + c.toNat * 2 ^ (W * i) := by
        rw [Nat.mul_succ, Nat.pow_add]
        linear_combination hset + 2 ^ (W * i) * hcarry
      rw [← hsum, ← bitLimb_toNat hW (carryOut _ _)]
      exact ih (by omega) _ _
    · exact ((mul_limb_weight_modEq_zero (Nat.not_lt.mp hi) _).add_left _).symm

theorem limbShl_toNat (a : Limb W) (s : Fin W) : (limbShl a s).toNat = a.toNat * 2 ^ s.val % 2 ^ W := by
  rw [limbShl, BitVec.toNat_shiftLeft, Nat.shiftLeft_eq]

theorem limbShr_toNat (a : Limb W) (s : Fin W) : (limbShr a s).toNat = a.toNat / 2 ^ s.val := by
  rw [limbShr, BitVec.toNat_ushiftRight, Nat.shiftRight_eq_div_pow]

/-- Shifted left by half a limb, a product straddles two limbs: the two parts are its digits (R144). -/
theorem straddle_toNat (hW : 0 < W) (he : W % 2 = 0) (p : Limb W) :
    (limbShl p (halfCount hW)).toNat + (limbShr p (halfCount hW)).toNat * 2 ^ W = p.toNat * 2 ^ (W / 2) := by
  rw [limbShl_toNat, limbShr_toNat, halfCount, two_pow_eq_half_mul_half he, Nat.mul_mod_mul_right]
  calc p.toNat % 2 ^ (W / 2) * 2 ^ (W / 2) + p.toNat / 2 ^ (W / 2) * (2 ^ (W / 2) * 2 ^ (W / 2))
      = (p.toNat % 2 ^ (W / 2) + 2 ^ (W / 2) * (p.toNat / 2 ^ (W / 2))) * 2 ^ (W / 2) := by ring
    _ = p.toNat * 2 ^ (W / 2) := by rw [Nat.mod_add_div]

/-- Placing the product P[i][j] adds it at its weight 2^(h × (i + j)), modulo 2^B (R144, R146). -/
theorem val_place (hW : 0 < W) (he : W % 2 = 0) (a b acc : Wide W N) (ij : Nat × Nat) :
    val (place hW a b acc ij) ≡
      val acc + (Machine.crossProduct hW a b ij.1 ij.2).toNat * 2 ^ (W / 2 * (ij.1 + ij.2)) [MOD 2 ^ (N * W)] := by
  generalize hP : Machine.crossProduct hW a b ij.1 ij.2 = P
  generalize ht : (ij.1 + ij.2) / 2 = t
  have hacc {i : Nat} (acc : Wide W N) (c : Limb W) := val_accAdd hW (Nat.le_add_left N i) acc c
  rw [place]
  dsimp only
  rw [hP, ht]
  by_cases hp : (ij.1 + ij.2) % 2 = 0
  · rw [if_pos hp, show ij.1 + ij.2 = 2 * t by omega, half_mul_two_mul he]
    split_ifs with htN
    · exact hacc acc P
    · exact ((mul_limb_weight_modEq_zero (Nat.not_lt.mp htN) _).add_left _).symm
  · have hsplit : P.toNat * 2 ^ (W * t + W / 2) =
        (limbShl P (halfCount hW)).toNat * 2 ^ (W * t) + (limbShr P (halfCount hW)).toNat * 2 ^ (W * (t + 1)) := by
      rw [Nat.add_comm, Nat.pow_add, ← Nat.mul_assoc, ← straddle_toNat hW he, Nat.mul_succ, Nat.pow_add]
      ring
    rw [if_neg hp, show ij.1 + ij.2 = 2 * t + 1 by omega, half_mul_two_mul_succ he]
    split_ifs with htN htN'
    · rw [hsplit, ← Nat.add_assoc]
      exact (hacc _ _).trans ((hacc acc _).add_right _)
    · rw [hsplit, ← Nat.add_assoc]
      exact ((hacc acc _).trans ((mul_limb_weight_modEq_zero (Nat.not_lt.mp htN') _).add_left _).symm)
    · rw [Nat.add_comm (W * t), Nat.pow_add, ← Nat.mul_assoc]
      exact ((mul_limb_weight_modEq_zero (Nat.not_lt.mp htN) _).add_left _).symm

/-- The accumulation is the sum of the products at their weights, modulo 2^B (R145). -/
theorem val_accumulate (hW : 0 < W) (he : W % 2 = 0) (a b : Wide W N) (order : List (Nat × Nat)) :
    val (accumulate hW a b order) ≡
      (order.map fun ij => (Machine.crossProduct hW a b ij.1 ij.2).toNat * 2 ^ (W / 2 * (ij.1 + ij.2))).sum
      [MOD 2 ^ (N * W)] := by
  have key : ∀ acc : Wide W N, val (order.foldl (place hW a b) acc) ≡ val acc +
      (order.map fun ij => (Machine.crossProduct hW a b ij.1 ij.2).toNat * 2 ^ (W / 2 * (ij.1 + ij.2))).sum
      [MOD 2 ^ (N * W)] := by
    induction order with
    | nil => exact fun acc => Nat.ModEq.refl _
    | cons ij order ih =>
      intro acc
      rw [List.foldl_cons, List.map_cons, List.sum_cons, ← Nat.add_assoc]
      exact (ih _).trans ((val_place hW he a b acc ij).add_right _)
  have h := key wZero
  rwa [val_wZero, Nat.zero_add] at h

/-! ## The products -/

/-- The half-limbs are the digits of the number in base 2^h (R142). -/
theorem halfLimb_toNat (hW : 0 < W) (he : W % 2 = 0) (x : Wide W N) (i : Nat) :
    (halfLimb hW x i).toNat = val x / 2 ^ (W / 2 * i) % 2 ^ (W / 2) := by
  have hlt : 2 ^ (W / 2) - 1 < 2 ^ W :=
    Nat.lt_of_lt_of_le (Nat.sub_lt (Nat.two_pow_pos _) Nat.one_pos)
      (Nat.pow_le_pow_right (by decide) (Nat.div_le_self W 2))
  rw [halfLimb]
  split
  next h0 =>
    have ht : 2 * (i / 2) = i := by omega
    rw [BitVec.toNat_and, BitVec.toNat_ofNat, Nat.mod_eq_of_lt hlt, Nat.and_two_pow_sub_one_eq_mod, limbAt_toNat,
      two_pow_eq_half_mul_half he, Nat.mod_mul_right_mod, ← half_mul_two_mul he, ht]
  next h1 =>
    have ht : 2 * (i / 2) + 1 = i := by omega
    rw [limbShr_toNat, limbAt_toNat, halfCount, two_pow_eq_half_mul_half he, Nat.mod_mul_right_div_self,
      Nat.div_div_eq_div_mul, ← Nat.pow_add, ← half_mul_two_mul_succ he, ht]

/-- A product of two half-limbs fits one limb (R143). -/
theorem crossProduct_toNat (hW : 0 < W) (he : W % 2 = 0) (a b : Wide W N) (i j : Nat) :
    (Machine.crossProduct hW a b i j).toNat = (halfLimb hW a i).toNat * (halfLimb hW b j).toNat := by
  have hlt (x : Wide W N) (i : Nat) : (halfLimb hW x i).toNat < 2 ^ (W / 2) := by
    rw [halfLimb_toNat hW he]
    exact Nat.mod_lt _ (Nat.two_pow_pos _)
  rw [Machine.crossProduct, BitVec.toNat_mul, Nat.mod_eq_of_lt]
  rw [two_pow_eq_half_mul_half he]
  exact Nat.mul_lt_mul_of_lt_of_lt (hlt a i) (hlt b j)

/-- The digits of a number in base 2^h sum up to it. -/
theorem sum_digits_eq_mod (v h n : Nat) :
    ((List.range n).map fun i => v / 2 ^ (h * i) % 2 ^ h * 2 ^ (h * i)).sum = v % 2 ^ (h * n) := by
  induction n with
  | zero => simp [Nat.mod_one]
  | succ n ih =>
    rw [List.range_succ, List.map_append, List.sum_append, ih, Nat.mul_succ, Nat.pow_add, Nat.mod_mul]
    simp [Nat.mul_comm]

/-- R12's sum over the half-limbs (R142). -/
theorem sum_halfLimbs (hW : 0 < W) (he : W % 2 = 0) (x : Wide W N) :
    ((List.range (2 * N)).map fun i => (halfLimb hW x i).toNat * 2 ^ (W / 2 * i)).sum = val x := by
  simp only [halfLimb_toNat hW he]
  rw [sum_digits_eq_mod, half_mul_two_mul he, val_mod_all]

/-- The whole matrix of products sums up to the product of the numbers (R143). -/
theorem sum_crossProducts (hW : 0 < W) (he : W % 2 = 0) (a b : Wide W N) :
    ((productOrder N).map fun ij => (Machine.crossProduct hW a b ij.1 ij.2).toNat * 2 ^ (W / 2 * (ij.1 + ij.2))).sum =
      val a * val b := by
  have hterm (i j : Nat) : (Machine.crossProduct hW a b i j).toNat * 2 ^ (W / 2 * (i + j)) =
      ((halfLimb hW a i).toNat * 2 ^ (W / 2 * i)) * ((halfLimb hW b j).toNat * 2 ^ (W / 2 * j)) := by
    rw [crossProduct_toNat hW he, Nat.mul_add, Nat.pow_add]
    ring
  rw [productOrder, List.map_flatMap, List.flatMap_def, List.sum_flatten]
  simp only [List.map_map, Function.comp_def, hterm, List.sum_map_mul_left, List.sum_map_mul_right, sum_halfLimbs hW he]

/-- In whatever order the products are accumulated, the result is R141's product (R147). -/
theorem accumulate_eq_mul (hW : 0 < W) (he : W % 2 = 0) (a b : Wide W N) {order : List (Nat × Nat)}
    (hperm : order.Perm (productOrder N)) : accumulate hW a b order = mul a b := by
  have h := val_accumulate hW he a b order
  rw [(hperm.map _).sum_eq, sum_crossProducts hW he] at h
  apply val_inj
  rw [val_mul, ← Nat.mod_eq_of_lt (val_lt (accumulate hW a b order))]
  exact h

end Sys2Proof.Proofs

/-! PROOFS. The divider (R157 to R161, R168), and the block built of its units (R2). -/

namespace Sys2Proof.Proofs

open Sys2Proof.Machine Sys2Proof.Laws

variable {W N : Nat}

/-! ## The divider's loop -/

/-- The divider's values with m iterations to go (R161): the probe bit is 2^(m - 1), none when m = 0; the divisor copy
stands at the same place; the quotient so far and the working dividend make up the dividend. -/
structure DivInvariant (a b m : Nat) (d : DivWork W N) : Prop where
  probe : val d.probe = 2 ^ m / 2
  dv : val d.dv = b * 2 ^ m / 2
  dividend : a = val d.q * b + val d.work
  work_lt : val d.work < b * 2 ^ m
  q_dvd : 2 ^ m ∣ val d.q

/-- With no iteration to go the quotient and the remainder stand in q and work (R161 (f)). -/
theorem DivInvariant.quotient {a b : Nat} {d : DivWork W N} (h : DivInvariant a b 0 d) :
    val d.q = a / b ∧ val d.work = a % b := by
  have hlt : val d.work < b := by simpa using h.work_lt
  rw [h.dividend, Nat.mul_comm, Nat.mul_add_div (Nat.zero_lt_of_lt hlt), Nat.mul_add_mod, Nat.div_eq_of_lt hlt,
    Nat.mod_eq_of_lt hlt]
  exact ⟨rfl, rfl⟩

theorem val_shrUnit_one (hW : 0 < W) (hB : 1 < N * W) (x : Wide W N) : val (shrUnit hW x 1) = val x / 2 := by
  rw [shrUnit_eq_shr, val_shr_of_lt x hB, Nat.pow_one]

theorem val_subtractor_of_le (hW : 0 < W) {x y : Wide W N} (h : val y ≤ val x) :
    val (subtractor x y) = val x - val y := by
  have hsub := val_sub x y
  have hlt : (val x : Int) < 2 ^ (N * W) := mod_cast val_lt x
  rw [Int.emod_eq_of_lt (by omega) (by omega), ← subtractor_eq_sub hW] at hsub
  omega

/-- One iteration takes the divider from m + 1 iterations to go to m (R161). -/
theorem divIter_invariant (hW : 0 < W) (hB : 1 < N * W) {a b m : Nat} {d : DivWork W N}
    (h : DivInvariant a b (m + 1) d) : DivInvariant a b m (divIter hW d) := by
  have hprobe : val d.probe = 2 ^ m := by rw [h.probe, Nat.pow_succ, Nat.mul_div_cancel _ (by decide)]
  have hdv : val d.dv = b * 2 ^ m := by
    rw [h.dv, Nat.pow_succ, ← Nat.mul_assoc, Nat.mul_div_cancel _ (by decide)]
  have hwork : val d.work < b * 2 ^ m + b * 2 ^ m := by
    have := h.work_lt
    rwa [Nat.pow_succ, ← Nat.mul_assoc, Nat.mul_two] at this
  have hdvd : 2 ^ m ∣ val d.q := Nat.dvd_trans (Nat.pow_dvd_pow 2 (Nat.le_succ m)) h.q_dvd
  by_cases hge : geuUnit d.work d.dv = true
  · have hle : b * 2 ^ m ≤ val d.work := hdv ▸ (geuUnit_iff _ _).mp hge
    have hq : val (wOr d.q d.probe) = val d.q + 2 ^ m := by
      obtain ⟨c, hc⟩ := h.q_dvd
      rw [val_wOr hW, hprobe, hc]
      exact (Nat.two_pow_add_eq_or_of_lt (Nat.pow_lt_pow_succ (by decide)) c).symm
    have hsub : val (subtractor d.work d.dv) = val d.work - b * 2 ^ m := by
      rw [val_subtractor_of_le hW ((geuUnit_iff _ _).mp hge), hdv]
    rw [divIter, if_pos hge]
    refine ⟨?_, ?_, ?_, ?_, ?_⟩
    · rw [val_shrUnit_one hW hB, hprobe]
    · rw [val_shrUnit_one hW hB, hdv]
    · rw [hq, hsub, Nat.add_mul, Nat.mul_comm (2 ^ m)]
      have := h.dividend
      omega
    · rw [hsub]
      omega
    · rw [hq]
      exact (Nat.dvd_add_right hdvd).mpr (Nat.dvd_refl _)
  · have hlt : val d.work < b * 2 ^ m := hdv ▸ Nat.not_le.mp (mt (geuUnit_iff _ _).mpr hge)
    rw [divIter, if_neg hge]
    exact ⟨by rw [val_shrUnit_one hW hB, hprobe], by rw [val_shrUnit_one hW hB, hdv], h.dividend, hlt, hdvd⟩

/-- The loop runs until the probe bit is gone, if its bound allows that many iterations (R161). -/
theorem divLoop_invariant (hW : 0 < W) (hB : 1 < N * W) {a b m fuel : Nat} {d : DivWork W N} (hfuel : m ≤ fuel)
    (h : DivInvariant a b m d) : DivInvariant a b 0 (divLoop hW fuel d) := by
  induction fuel generalizing m d with
  | zero =>
    obtain rfl := Nat.le_zero.mp hfuel
    exact h
  | succ fuel ih =>
    rw [divLoop, equ_wZero, h.probe]
    cases m with
    | zero => exact h
    | succ m =>
      rw [Nat.pow_succ, Nat.mul_div_cancel _ (by decide), if_neg (by simp)]
      exact ih (Nat.le_of_succ_le_succ hfuel) (divIter_invariant hW hB h)

theorem size_pos_of_val_ne_zero {x : Wide W N} (h : val x ≠ 0) : 0 < N * W := by
  by_contra h0
  have hlt := val_lt x
  rw [Nat.eq_zero_of_not_pos h0] at hlt
  omega

theorem two_pow_msb_le {x : Wide W N} (h : val x ≠ 0) : 2 ^ msb x ≤ val x := by
  rw [msb_eq_log2]
  exact Nat.log2_self_le h

theorem lt_two_pow_msb_succ (x : Wide W N) : val x < 2 ^ (msb x + 1) := by
  rw [msb_eq_log2]
  exact Nat.lt_log2_self

theorem msb_le_msb {x y : Wide W N} (hx : val x ≠ 0) (h : val x ≤ val y) : msb x ≤ msb y := by
  rw [msb_eq_log2, msb_eq_log2]
  exact (Nat.le_log2 (by omega)).mpr ((Nat.log2_self_le hx).trans h)

theorem val_shlUnit_wOne (hW : 0 < W) {s : Nat} (hs : s < N * W) : val (shlUnit hW (wOne : Wide W N) s) = 2 ^ s := by
  rw [shlUnit_eq_shl, val_shl_of_lt _ hs, val_wOne (Nat.zero_lt_of_lt hs), Nat.one_mul,
    Nat.mod_eq_of_lt (Nat.pow_lt_pow_right (by decide) hs)]

/-- The values before the loop have one iteration to go for each place the divisor was shifted, and one more (R161). -/
theorem divStart_invariant (hW : 0 < W) {a b : Wide W N} (hb : val b ≠ 0) (hle : val b ≤ val a) :
    DivInvariant (val a) (val b) (msb a - msb b + 1) (divStart hW a b) := by
  have hmsb : msb b + (msb a - msb b) = msb a := Nat.add_sub_cancel' (msb_le_msb hb hle)
  have ha : msb a < N * W := msb_lt (size_pos_of_val_ne_zero hb) a
  have hfit : val b * 2 ^ (msb a - msb b) < 2 ^ (N * W) := by
    calc val b * 2 ^ (msb a - msb b) < 2 ^ (msb b + 1) * 2 ^ (msb a - msb b) :=
          Nat.mul_lt_mul_of_pos_right (lt_two_pow_msb_succ b) (Nat.two_pow_pos _)
      _ = 2 ^ (msb a + 1) := by rw [← Nat.pow_add]; congr 1; omega
      _ ≤ 2 ^ (N * W) := Nat.pow_le_pow_right (by decide) ha
  rw [divStart, msbUnit_eq_msb, msbUnit_eq_msb]
  refine ⟨?_, ?_, ?_, ?_, ?_⟩
  · rw [val_shlUnit_wOne hW (by omega), Nat.pow_succ, Nat.mul_div_cancel _ (by decide)]
  · rw [shlUnit_eq_shl, val_shl_of_lt _ (by omega), Nat.mod_eq_of_lt hfit, Nat.pow_succ, ← Nat.mul_assoc,
      Nat.mul_div_cancel _ (by decide)]
  · simp
  · calc val a < 2 ^ (msb a + 1) := lt_two_pow_msb_succ a
      _ = 2 ^ msb b * 2 ^ (msb a - msb b + 1) := by rw [← Nat.pow_add]; congr 1; omega
      _ ≤ val b * 2 ^ (msb a - msb b + 1) := Nat.mul_le_mul_right _ (two_pow_msb_le hb)
  · simp

/-! ## The whole divider -/

theorem isPowerOfTwo_iff (hW : 0 < W) (hB : 0 < N * W) (b : Wide W N) :
    isPowerOfTwo hW b = true ↔ val b = 2 ^ msb b := by
  rw [isPowerOfTwo, equ_iff, msbUnit_eq_msb, val_shlUnit_wOne hW (msb_lt hB b)]
  exact eq_comm

theorem divmod_eq_some {x y q r : Wide W N} (hy : val y ≠ 0) (hq : val q = val x / val y)
    (hr : val r = val x % val y) : divmod x y = some (q, r) := by
  obtain ⟨q', r', h, hq', hr'⟩ := divmod_of_ne (x := x) hy
  rw [h, val_inj (hq'.trans hq.symm), val_inj (hr'.trans hr.symm)]

/-- The loop of the general case ends with quotient and remainder: its bound, B, exceeds the shift (R160, R161). -/
theorem divLoop_quotient (hW : 0 < W) (hB : 1 < N * W) {a b : Wide W N} (hb : val b ≠ 0) (hle : val b ≤ val a) :
    val (divLoop hW (N * W) (divStart hW a b)).q = val a / val b ∧
      val (divLoop hW (N * W) (divStart hW a b)).work = val a % val b := by
  have ha : msb a < N * W := msb_lt (by omega) a
  exact (divLoop_invariant hW hB (by omega) (divStart_invariant hW hb hle)).quotient

/-- The divider computes the pair of R156, by whichever of its steps answers (R168). -/
theorem divider_eq_divmod (hW : 0 < W) (hB : 1 < N * W) (a b : Wide W N) : divider hW a b = divmod a b := by
  have hB0 : 0 < N * W := by omega
  rw [divider, equ_wZero, ltuUnit_eq_ltu]
  by_cases hzero : val b = 0
  · rw [if_pos (decide_eq_true hzero), (divmod_eq_none_iff a b).mpr hzero]
  rw [if_neg (by simpa using hzero)]
  by_cases hlt : val a < val b
  · rw [if_pos ((ltu_iff a b).mpr hlt), divmod_eq_some hzero (q := wZero) (r := a)]
    · rw [val_wZero, Nat.div_eq_of_lt hlt]
    · rw [Nat.mod_eq_of_lt hlt]
  rw [if_neg (mt (ltu_iff a b).mp hlt)]
  by_cases hpow : isPowerOfTwo hW b = true
  · have hb := (isPowerOfTwo_iff hW hB0 b).mp hpow
    have hone : val (wOne : Wide W N) = 1 := val_wOne hB0
    rw [if_pos hpow]
    refine (divmod_eq_some hzero ?_ ?_).symm
    · rw [msbUnit_eq_msb, shrUnit_eq_shr, val_shr_of_lt _ (msb_lt hB0 b), ← hb]
    · rw [val_wAnd hW, val_subtractor_of_le hW (by omega), hone, hb, Nat.and_two_pow_sub_one_eq_mod]
  · obtain ⟨hq, hr⟩ := divLoop_quotient hW hB hzero (Nat.not_lt.mp hlt)
    rw [if_neg hpow, divmod_eq_some hzero hq hr]

/-! ## The block of its units -/

theorem config_B_gt_one (cfg : Config) : 1 < cfg.N * cfg.W :=
  Nat.lt_of_lt_of_le cfg.W_ge_two (Nat.le_mul_of_pos_left _ cfg.N_pos)

theorem divideByUnit_eq_division (s : State) (c : Word32) (ra rb : RegNum)
    (write : Wide s.cfg.W s.cfg.N → Wide s.cfg.W s.cfg.N → State) :
    s.divideByUnit c ra rb write = s.division c ra rb write := by
  rw [State.divideByUnit, divider_eq_divmod _ (config_B_gt_one s.cfg)]
  rfl

/-- Two commands that commit the same value end in the same outcome. -/
theorem next_commit_congr {s : State} {rd : RegNum} {v w : Wide s.cfg.W s.cfg.N} (h : v = w) :
    (.next (s.commit rd v) : Host.Outcome State Fault Refusal) = .next (s.commit rd w) := by rw [h]

/-- Settles O38: each unit computes its operation's value rule. -/
theorem unitsExecuteEveryCommandAsTheValueRules : Obligations.UnitsExecuteEveryCommandAsTheValueRules := by
  intro i s
  cases i with
  | li rd imm16 => rfl
  | mov rd ra => rfl
  | not rd ra => rfl
  | bits rd ra => exact next_commit_congr (congrArg (fun n : Nat => wide n) (msbUnit_eq_msb _))
  | shl rd ra rb => exact next_commit_congr (shlUnit_eq_shl ..)
  | shr rd ra rb => exact next_commit_congr (shrUnit_eq_shr ..)
  | shli rd ra imm12 => exact next_commit_congr (shlUnit_eq_shl ..)
  | shri rd ra imm12 => exact next_commit_congr (shrUnit_eq_shr ..)
  | add rd ra rb => exact next_commit_congr (adder_eq_add s.cfg.W_pos ..)
  | sub rd ra rb => exact next_commit_congr (subtractor_eq_sub s.cfg.W_pos ..)
  | neg rd ra => exact next_commit_congr (adder_eq_add s.cfg.W_pos ..)
  | inc rd ra => exact next_commit_congr (adder_eq_add s.cfg.W_pos ..)
  | dec rd ra => exact next_commit_congr (subtractor_eq_sub s.cfg.W_pos ..)
  | mul rd ra rb => exact next_commit_congr (accumulate_eq_mul s.cfg.W_pos s.cfg.W_even _ _ (.refl _))
  | div rd ra rb => exact congrArg Host.Outcome.next (divideByUnit_eq_division ..)
  | mod rd ra rb => exact congrArg Host.Outcome.next (divideByUnit_eq_division ..)
  | divmod rd rr ra rb => exact congrArg (fun t => Host.Outcome.next (ite (rd = rr) _ t)) (divideByUnit_eq_division ..)

end Sys2Proof.Proofs

/-! PROOFS. The state at reset (R30), the error record (R26, R27, R191) and the registers (R23): what each transaction does to
them, and from that what every step keeps. -/

namespace Sys2Proof.Proofs

open Sys2Proof.Machine Sys2Proof.Laws

/-- What a step can do: stay idle with no transaction left, or perform the first one (R16, R210). -/
theorem step_next_cases {s t : State} (h : step s = .next t) :
    t = s ∨ ∃ tr rest, s.script = tr :: rest ∧ perform { s with script := rest } tr = .next t := by
  cases hscript : s.script with
  | nil =>
    cases h.symm.trans (step_nil s hscript)
    exact .inl rfl
  | cons tr rest => exact .inr ⟨tr, rest, rfl, (step_cons s tr rest hscript).symm.trans h⟩

/-! ## The error record -/

/-- The error record of `t` is that of `s`. -/
def SameRecord (s t : State) : Prop := t.err = s.err ∧ t.cause = s.cause ∧ t.einfo = s.einfo

/-- Consistency is a property of the record alone. -/
theorem SameRecord.errorRecordOk {s t : State} (h : SameRecord s t) (hs : s.errorRecordOk) : t.errorRecordOk := by
  obtain ⟨herr, hcause, hinfo⟩ := h
  rwa [State.errorRecordOk, herr, hcause, hinfo]

/-- Reset leaves the record that an acknowledgement leaves (R30, R177). -/
theorem resetOf_sameRecord (s : State) (cfg : Config) : SameRecord s.clearErrors (State.resetOf cfg) := ⟨rfl, rfl, rfl⟩

theorem resetOf_errorRecordOk (cfg : Config) : (State.resetOf cfg).errorRecordOk :=
  (resetOf_sameRecord _ cfg).errorRecordOk (clearErrors_errorRecordOk (State.resetOf cfg))

/-- What a transaction can do to the error record: keep it, take the error entry, or clear it, and the last only by a
write of STATUS with bit 0 set or by reset (R26, R177, R196, R210). -/
theorem perform_record {s t : State} {tr : Transaction s.cfg.W} (h : perform s tr = .next t) :
    SameRecord s t ∨ (∃ c info p, t = s.raise c info p) ∨
    (SameRecord s.clearErrors t ∧ ((∃ v, tr = .ctlWrite 0 v ∧ v.getLsbD 0 = true) ∨ tr = .reset)) := by
  obtain ⟨u, hu, hends⟩ := perform_ends s tr
  cases h.symm.trans hu
  rcases hends with ⟨htr, rfl⟩ | ⟨-, -, -, -, hkeep⟩ | hraise
  · exact .inr (.inr ⟨resetOf_sameRecord s s.cfg, .inr htr⟩)
  · by_cases hw : ∃ v, tr = .ctlWrite 0 v
    · obtain ⟨v, rfl⟩ := hw
      cases h
      rcases writeStatus_cases s v with ⟨hv, hclear⟩ | ⟨-, hkept⟩
      · rw [hclear]
        exact .inr (.inr ⟨⟨rfl, rfl, rfl⟩, .inl ⟨v, rfl, hv⟩⟩)
      · rw [hkept]
        exact .inl ⟨rfl, rfl, rfl⟩
    · exact .inl (hkeep (not_exists.mp hw))
  · exact .inr (.inl hraise)

theorem perform_errorRecordOk {s t : State} {tr : Transaction s.cfg.W} (hs : s.errorRecordOk)
    (h : perform s tr = .next t) : t.errorRecordOk := by
  rcases perform_record h with hsame | ⟨c, info, p, rfl⟩ | ⟨hclear, -⟩
  · exact hsame.errorRecordOk hs
  · exact raise_errorRecordOk s c info p
  · exact hclear.errorRecordOk (clearErrors_errorRecordOk s)

/-- Settles O53: an idle step changes nothing, and each of a transaction's three effects on the record keeps it consistent. -/
theorem everyStepKeepsTheErrorRecordConsistent : Obligations.EveryStepKeepsTheErrorRecordConsistent := by
  intro s t hs h
  rcases step_next_cases h with rfl | ⟨tr, rest, -, hp⟩
  · exact hs
  · exact perform_errorRecordOk ((script_errorRecordOk s rest).mpr hs) hp

/-- Settles O55: of a transaction's three effects on the record only the clearing one lets ERR fall. -/
theorem errStaysSetUntilClearedOrReset : Obligations.ErrStaysSetUntilClearedOrReset := by
  intro s t h herr
  rcases step_next_cases h with rfl | ⟨tr, rest, hscript, hp⟩
  · exact .inl herr
  · rcases perform_record hp with ⟨hsame, -⟩ | ⟨c, info, p, rfl⟩ | ⟨-, ⟨v, rfl, hv⟩ | rfl⟩
    · exact .inl (hsame.trans herr)
    · exact .inl rfl
    · exact .inr (.inl ⟨v, rest, hscript, hv⟩)
    · exact .inr (.inr ⟨rest, hscript⟩)

/-! ## The registers -/

/-- Register `r` and each of its limbs hold in `t` what they hold in `s`. -/
def KeepsReg (r : RegNum) (s t : State) : Prop := t.regVal r = s.regVal r ∧ ∀ k, t.limbVal r k = s.limbVal r k

theorem KeepsReg.refl (r : RegNum) (s : State) : KeepsReg r s s := ⟨rfl, fun _ => rfl⟩

theorem KeepsReg.okay {r : RegNum} {s t : State} (h : KeepsReg r s t) (d) : KeepsReg r s (t.okay d) := h

theorem KeepsReg.raise {r : RegNum} {s t : State} (h : KeepsReg r s t) (c info p) : KeepsReg r s (t.raise c info p) := h

/-- A write to another register keeps it (R23). -/
theorem KeepsReg.setReg {r rd : RegNum} {s t : State} (h : KeepsReg r s t) (hne : rd ≠ r) (v) :
    KeepsReg r s (t.setReg rd v) := by
  obtain ⟨hval, hlimb⟩ := h
  refine ⟨?_, fun k => ?_⟩
  · rw [setReg_regVal, if_neg hne, hval]
  · rw [setReg_limbVal, if_neg hne, hlimb]

theorem KeepsReg.commit {r rd : RegNum} {s t : State} (h : KeepsReg r s t) (hne : rd ≠ r) (v) :
    KeepsReg r s (t.commit rd v) := (h.setReg hne v).okay none

/-- A command keeps every register that is no destination of it (R80). -/
theorem exec_keepsReg {i : Instr} {s t : State} {r : RegNum} (hr : r ∉ i.dests) (h : exec i s = .next t) :
    KeepsReg r s t := by
  rcases exec_cases i s with ⟨rd, y, hd, he⟩ | ⟨rd, rr, q, m, hd, -, he⟩ | ⟨c, he⟩
  · cases h.symm.trans he
    have hne : rd ≠ r := fun e => hr (by simp [hd, e])
    exact (KeepsReg.refl r s).commit hne y
  · cases h.symm.trans he
    have hned : rd ≠ r := fun e => hr (by simp [hd, e])
    have hner : rr ≠ r := fun e => hr (by simp [hd, e])
    exact ((KeepsReg.refl r s).setReg hned q).commit hner m
  · cases h.symm.trans he
    exact (KeepsReg.refl r s).raise ..

theorem issue_keepsReg {s t : State} {c : Word32} {r : RegNum} (h : issue s c = .next t) :
    (∃ i, decode c = .ok i ∧ r ∈ i.dests) ∨ KeepsReg r s t := by
  rcases issue_cases s c with ⟨i, hd, hi⟩ | ⟨-, -, hi⟩
  · by_cases hr : r ∈ i.dests
    · exact .inl ⟨i, hd, hr⟩
    · exact .inr (exec_keepsReg hr (hi.symm.trans h))
  · cases h.symm.trans hi
    exact .inr ((KeepsReg.refl r s).raise ..)

theorem writeStatus_keepsReg (s : State) (v : Word32) (r : RegNum) : KeepsReg r s (s.writeStatus v) := by
  rcases writeStatus_cases s v with ⟨-, h⟩ | ⟨-, h⟩ <;> rw [h] <;> exact KeepsReg.refl r s

/-- A limb write keeps every other register; into a hole it writes nothing at all (R43). -/
theorem limbWrite_keepsReg (s : State) {r r' : RegNum} (hne : r' ≠ r) (i : BitVec 8) (v : Limb s.cfg.W) :
    KeepsReg r s (s.limbWrite r' i v) := by
  rcases limbWrite_cases s r' i v with ⟨-, h⟩ | ⟨-, h⟩
  · rw [h]
    exact ((KeepsReg.refl r s).setReg hne _).okay none
  · rw [h]
    exact (KeepsReg.refl r s).raise ..

theorem limbRead_keepsReg (s : State) (r r' : RegNum) (i : BitVec 8) : KeepsReg r s (s.limbRead r' i) := by
  rcases limbRead_cases s r' i with ⟨-, h⟩ | ⟨-, h⟩ <;> rw [h] <;> exact KeepsReg.refl r s

theorem ctlRead_keepsReg (s : State) (r : RegNum) (n : BitVec 2) : KeepsReg r s (s.ctlRead n) := by
  rcases ctlRead_cases s n with ⟨-, h⟩ | ⟨-, h⟩ | ⟨-, h⟩ <;> rw [h] <;> exact KeepsReg.refl r s

/-- The transactions that may change register `r`: a limb write to it, a command with it as destination, and reset (R23). -/
def MayWrite {W : Nat} (r : RegNum) (tr : Transaction W) : Prop :=
  (∃ i v, tr = .limbWrite r i v) ∨ (∃ c i, tr = .ctlWrite 2 c ∧ decode c = .ok i ∧ r ∈ i.dests) ∨ tr = .reset

theorem perform_keepsReg {s t : State} {tr : Transaction s.cfg.W} (r : RegNum) (h : perform s tr = .next t) :
    MayWrite r tr ∨ KeepsReg r s t := by
  cases tr with
  | limbWrite r' i v =>
    cases h
    by_cases hr : r' = r
    · exact .inl (.inl ⟨i, v, by rw [hr]⟩)
    · exact .inr (limbWrite_keepsReg s hr i v)
  | limbRead r' i =>
    cases h
    exact .inr (limbRead_keepsReg s r r' i)
  | ctlWrite n v =>
    rw [perform] at h
    rcases ctlWrite_cases s n v with ⟨-, hw⟩ | ⟨rfl, hw⟩ | ⟨-, hw⟩
    · cases h.symm.trans hw
      exact .inr (writeStatus_keepsReg s v r)
    · rcases issue_keepsReg (hw.symm.trans h) with ⟨i, hd, hr⟩ | hkeep
      · exact .inl (.inr (.inl ⟨v, i, rfl, hd, hr⟩))
      · exact .inr hkeep
    · cases h.symm.trans hw
      exact .inr ((KeepsReg.refl r s).raise ..)
  | ctlRead n =>
    cases h
    exact .inr (ctlRead_keepsReg s r n)
  | reset => exact .inl (.inr (.inr rfl))

/-- Settles O56: an idle step changes nothing, and a transaction that is no writer of the register keeps it. -/
theorem registerKeepsItsValueUntilWritten : Obligations.RegisterKeepsItsValueUntilWritten := by
  intro s t r h
  rcases step_next_cases h with rfl | ⟨tr, rest, hscript, hp⟩
  · exact .inr (.inr (.inr (KeepsReg.refl r t)))
  · rcases perform_keepsReg r hp with (⟨i, v, rfl⟩ | ⟨c, i, rfl, hd, hr⟩ | rfl) | hkeep
    · exact .inl ⟨rest, i, v, hscript⟩
    · exact .inr (.inl ⟨rest, c, i, hscript, hd, hr⟩)
    · exact .inr (.inr (.inl ⟨rest, hscript⟩))
    · exact .inr (.inr (.inr hkeep))

/-! ## Reset -/

theorem resetOf_reg (cfg : Config) (r : RegNum) : (State.resetOf cfg).reg r = (wZero : Wide cfg.W cfg.N) :=
  (Vector.getElem_replicate r.isLt).trans wZero_eq_replicate.symm

theorem resetOf_regVal (cfg : Config) (r : RegNum) : (State.resetOf cfg).regVal r = 0 :=
  (val_eq_zero_iff _).mpr (resetOf_reg cfg r)

theorem resetOf_limbVal (cfg : Config) (r : RegNum) (i : Nat) : (State.resetOf cfg).limbVal r i = 0 := by
  have hval : val ((State.resetOf cfg).reg r) = 0 := resetOf_regVal cfg r
  rw [State.limbVal, limbAt_toNat, hval, Nat.zero_div, Nat.zero_mod]

/-- Settles O50: every register holds ZERO, and the record fields are 0 by the definition of the reset state. -/
theorem resetStateIsZeroEverywhere : Obligations.ResetStateIsZeroEverywhere := fun cfg =>
  ⟨rfl, resetOf_limbVal cfg, resetOf_regVal cfg, rfl, rfl, rfl, rfl⟩

/-- Settles O52: the record at reset is the acknowledged one, in the reference build as in every other. -/
theorem errorRecordIsConsistentAtReset : Obligations.ErrorRecordIsConsistentAtReset :=
  ⟨resetOf_errorRecordOk Config.reference, resetOf_errorRecordOk⟩

end Sys2Proof.Proofs

/-! PROOFS. The limb port (R42, R43, R47): what a limb read, a limb write, and a read after a write do. -/

namespace Sys2Proof.Proofs

open Sys2Proof.Machine Sys2Proof.Laws

/-- The access word of the limb port as R42 and R43 write it: r × 256 + i, and 2^30 more for a write (R195). -/
theorem accessWord_limb (write : Bool) (r : RegNum) (i : BitVec 8) :
    accessWord .limb write (limbAddr r i) = BitVec.ofNat 32 (write.toNat * 2 ^ 30 + r.val * 256 + i.toNat) := by
  have haddr : (limbAddr r i).toNat = r.val * 256 + i.toNat := by
    rw [limbAddr, BitVec.toNat_ofNat, Nat.mod_eq_of_lt (by omega)]
  simp only [accessWord, haddr, portBit, Nat.zero_mul, Nat.zero_add, Nat.add_assoc]

theorem step_limbRead {s : State} {r : RegNum} {i : BitVec 8} {rest : List (Transaction s.cfg.W)}
    (hs : s.script = .limbRead r i :: rest) : step s = .next (({ s with script := rest } : State).limbRead r i) :=
  step_cons s (.limbRead r i) rest hs

theorem step_limbWrite {s : State} {r : RegNum} {i : BitVec 8} {v : Limb s.cfg.W} {rest : List (Transaction s.cfg.W)}
    (hs : s.script = .limbWrite r i v :: rest) : step s = .next (({ s with script := rest } : State).limbWrite r i v) :=
  step_cons s (.limbWrite r i v) rest hs

/-- Settles O43: the two forms of a limb read, inside the value and in a hole. -/
theorem limbReadReturnsTheLimb : Obligations.LimbReadReturnsTheLimb := by
  intro s r i rest hs
  rw [step_limbRead hs]
  rcases limbRead_cases { s with script := rest } r i with ⟨hin, h⟩ | ⟨hhole, h⟩
  · rw [h]
    exact ⟨fun _ => rfl, fun hge => absurd hin (Nat.not_lt.mpr hge)⟩
  · rw [h, accessWord_limb, Bool.toNat_false, Nat.zero_mul, Nat.zero_add]
    exact ⟨fun hlt => absurd hlt (Nat.not_lt.mpr hhole), fun _ => rfl⟩

/-- Settles O44: the two forms of a limb write; the value written is w[r] with limb i replaced. -/
theorem limbWriteReplacesOneLimb : Obligations.LimbWriteReplacesOneLimb := by
  intro s r i v rest hs
  rw [step_limbWrite hs]
  rcases limbWrite_cases { s with script := rest } r i v with ⟨hin, h⟩ | ⟨hhole, h⟩
  · rw [h]
    refine ⟨fun _ => ⟨setLimb (s.reg r) i.toNat v, rfl, fun j => ?_⟩, fun hge => absurd hin (Nat.not_lt.mpr hge)⟩
    simp only [limbAt_setLimb (s.reg r) i.toNat j v hin, eq_comm]
  · rw [h, accessWord_limb, Bool.toNat_true, Nat.one_mul]
    exact ⟨fun hlt => absurd hlt (Nat.not_lt.mpr hhole), fun _ => rfl⟩

/-- The limb i' of register r' after `y`, which is w[r] with limb i replaced by `v`, is written to register r (R43, R47). -/
theorem limbAt_setReg_of_replaced (s : State) (r r' : RegNum) (i i' : BitVec 8) (v : Limb s.cfg.W)
    {y : Wide s.cfg.W s.cfg.N} (hy : ∀ j, limbAt y j = if j = i.toNat then v else limbAt (s.reg r) j) :
    limbAt (W := s.cfg.W) (N := s.cfg.N) ((s.setReg r y).reg r') i'.toNat =
      if r' = r ∧ i' = i then v else limbAt (s.reg r') i'.toNat := by
  rw [setReg_reg]
  by_cases hr : r = r'
  · subst hr
    simp only [if_true, hy, true_and, BitVec.toNat_inj]
  · rw [if_neg hr, if_neg fun ⟨h, _⟩ => hr h.symm]

/-- Settles O45: the step of O44, then the step of O43 in the state it leads to. -/
theorem limbReadReturnsTheLatestWrite : Obligations.LimbReadReturnsTheLatestWrite := by
  intro s r r' i i' v rest hs hi hi'
  obtain ⟨y, hwrite, hlimbs⟩ := (limbWriteReplacesOneLimb s r i v (.limbRead r' i' :: rest) hs).1 hi
  have hread := (limbReadReturnsTheLimb
    ((State.setReg { s with script := .limbRead r' i' :: rest } r y).okay none) r' i' rest rfl).1 hi'
  refine ⟨y, (run_succ 1 hwrite).trans ((run_succ 0 hread).trans ?_)⟩
  rw [← limbAt_setReg_of_replaced s r r' i i' v hlimbs]
  rfl

end Sys2Proof.Proofs

/-! PROOFS. The encoding (R60 to R68): what decoding a word can do, said once over the formats of R62; then the round
trips between words and commands, the opcode table, and the illegal words. -/

namespace Sys2Proof.Proofs

open Sys2Proof.Machine Sys2Proof.Laws

/-! ## The formats of R62 -/

/-- The format of a row of the opcode table, with the command that the row's fields make (R62). -/
inductive Format where
  | r (mk : RegNum → RegNum → RegNum → Instr)
  | u (mk : RegNum → RegNum → Instr)
  | i (mk : RegNum → RegNum → BitVec 12 → Instr)
  | l (mk : RegNum → BitVec 16 → Instr)
  | q (mk : RegNum → RegNum → RegNum → RegNum → Instr)

/-- The format that an opcode selects; none for an unassigned opcode (R64, R65 (a)). -/
def formatOf : Nat → Option Format
  | 0x01 => some (.l .li)
  | 0x02 => some (.u .mov)
  | 0x10 => some (.u .bits)
  | 0x20 => some (.r .shl)
  | 0x21 => some (.r .shr)
  | 0x22 => some (.i .shli)
  | 0x23 => some (.i .shri)
  | 0x30 => some (.r .add)
  | 0x31 => some (.r .sub)
  | 0x32 => some (.u .neg)
  | 0x33 => some (.u .not)
  | 0x34 => some (.u .inc)
  | 0x35 => some (.u .dec)
  | 0x40 => some (.r .mul)
  | 0x50 => some (.r .div)
  | 0x51 => some (.r .mod)
  | 0x52 => some (.q .divmod)
  | _ => none

namespace Format

/-- The model's decoder of the format. -/
def decode (c : Word32) : Format → Except Illegal Instr
  | r mk => decodeR c mk
  | u mk => decodeU c mk
  | i mk => decodeI c mk
  | l mk => decodeL c mk
  | q mk => decodeQ c mk

/-- The command that the fields of a word make. -/
def read (c : Word32) : Format → Instr
  | r mk => mk (rdField c) (raField c) (rbField c)
  | u mk => mk (rdField c) (raField c)
  | i mk => mk (rdField c) (raField c) (imm12Field c)
  | l mk => mk (rdField c) (imm16Field c)
  | q mk => mk (rdField c) (rrField c) (raField c) (rbField c)

/-- R62's formula on the fields of a word, a field that the format lacks being 0. -/
def pack (op : Nat) (c : Word32) : Format → Nat
  | r _ => packWord op (rdField c) (raField c) (rbField c) 0
  | u _ => packWord op (rdField c) (raField c) 0 0
  | i _ => packWord op (rdField c) (raField c) 0 (imm12Field c).toNat
  | l _ => packWord op (rdField c) 0 0 (imm16Field c).toNat
  | q _ => packWord op (rdField c) (raField c) (rbField c) ((rrField c).val * 2 ^ 8)

/-- The bits C[hi:lo] of a word that the format marks 0, as a number (R62). -/
def zeroField (c : Word32) : Format → Nat
  | r _ => field c 11 0
  | u _ => field c 15 0
  | i _ => field c 15 12
  | l _ => field c 19 16
  | q _ => field c 7 0

/-- R65 (c): the format has two destinations, and the word names one register for both. -/
def SameDest (c : Word32) : Format → Prop
  | q _ => rdField c = rrField c
  | _ => False

/-- What the decoder of a format can accept. -/
theorem decode_eq_ok_iff (f : Format) {c : Word32} {j : Instr} :
    f.decode c = .ok j ↔ f.zeroField c = 0 ∧ ¬ f.SameDest c ∧ f.read c = j := by
  cases f with
  | q mk =>
    rw [decode, decodeQ, zeroField, SameDest, read]
    split_ifs <;> simp_all
  | _ =>
    simp only [decode, decodeR, decodeU, decodeI, decodeL, zeroField, SameDest, read]
    split_ifs <;> simp_all

/-- A word with its zero bits zero is put together again by R62's formula. -/
theorem pack_eq_toNat {f : Format} {c : Word32} (hz : f.zeroField c = 0) : f.pack (opField c) c = c.toNat := by
  have hc := c.isLt
  cases f <;>
  · simp only [zeroField, field, pack, packWord, opField, rdField, raField, rbField, rrField, imm12Field, imm16Field,
      Fin.ofNat, BitVec.toNat_ofNat] at *
    omega

end Format

/-! ## The seventeen rows: each fact is read off row by row, and no later proof unfolds `formatOf` but for a row's mask -/

theorem mem_assignedOpcodes_iff {op : Nat} : op ∈ assignedOpcodes ↔ ∃ f, formatOf op = some f := by
  constructor
  · intro h
    have hall : ∀ op ∈ assignedOpcodes, (formatOf op).isSome := by decide
    exact Option.isSome_iff_exists.mp (hall op h)
  · rintro ⟨f, hf⟩
    unfold formatOf at hf
    split at hf <;> cases hf <;> decide

theorem formatOf_lt {op : Nat} {f : Format} (hf : formatOf op = some f) : op < 256 := by
  have hall : ∀ op ∈ assignedOpcodes, op < 256 := by decide
  exact hall op (mem_assignedOpcodes_iff.mpr ⟨f, hf⟩)

theorem decode_eq_format (c : Word32) :
    decode c = (formatOf (opField c)).elim (.error .unassignedOpcode) (Format.decode c) := by
  unfold decode
  split <;> simp only [formatOf, *] <;> rfl

section
variable {op : Nat} {f : Format} (hf : formatOf op = some f) (c : Word32)
include hf

theorem encodeNat_read : encodeNat (f.read c) = f.pack op c := by
  unfold formatOf at hf
  split at hf <;> cases hf <;> rfl

theorem wellFormed_read : (f.read c).wellFormed = true ↔ ¬ f.SameDest c := by
  unfold formatOf at hf
  split at hf <;> cases hf <;> simp [Format.read, Format.SameDest, Instr.wellFormed]

theorem mnemonic_read : (f.read c).mnemonic = (f.read 0).mnemonic := by
  unfold formatOf at hf
  split at hf <;> cases hf <;> rfl

theorem wellFormed_read_iff_mnemonic :
    (f.read c).wellFormed = true ↔ ((f.read c).mnemonic = "DIVMOD" → rdField c ≠ rrField c) := by
  unfold formatOf at hf
  split at hf <;> cases hf <;> simp [Format.read, Instr.mnemonic, Instr.wellFormed]

theorem sameDest_iff : f.SameDest c ↔ op = 0x52 ∧ rdField c = rrField c := by
  unfold formatOf at hf
  split at hf <;> cases hf <;> simp [Format.SameDest]

end

/-- What decoding can accept: a word of an assigned opcode with its zero bits zero (R65 (a), (b)); the command is the one
its fields make, and it is well-formed (R65 (c)). -/
theorem decode_eq_ok_iff {c : Word32} {i : Instr} :
    decode c = .ok i ↔ ∃ f, formatOf (opField c) = some f ∧ f.zeroField c = 0 ∧ i.wellFormed = true ∧ f.read c = i := by
  rw [decode_eq_format]
  cases hf : formatOf (opField c) with
  | none => simp
  | some f =>
    simp only [Option.elim_some, Format.decode_eq_ok_iff, ← wellFormed_read hf, Option.some.injEq, exists_eq_left']
    refine and_congr_right fun _ => and_congr_left ?_
    rintro rfl
    rfl

/-- Settles O3: the fields of a legal word are put together to the word itself. -/
theorem legalWordIsTheEncodingOfItsCommand : Obligations.LegalWordIsTheEncodingOfItsCommand := by
  intro c i h
  obtain ⟨f, hf, hz, hw, rfl⟩ := decode_eq_ok_iff.mp h
  exact ⟨by rw [encode, encodeNat_read hf, Format.pack_eq_toNat hz, BitVec.ofNat_toNat, BitVec.setWidth_eq], hw⟩

/-! ## The clauses of each format, and decode of encode -/

section
variable {op : Nat}

theorem encodedInR_of_format {mk} (hf : formatOf op = some (.r mk)) : encodedInR op mk := by
  rintro c rfl
  rw [decode_eq_format, hf]
  exact ⟨fun hz => if_pos hz, fun hz => if_neg hz⟩

theorem encodedInU_of_format {mk} (hf : formatOf op = some (.u mk)) : encodedInU op mk := by
  rintro c rfl
  rw [decode_eq_format, hf]
  exact ⟨fun hz => if_pos hz, fun hz => if_neg hz⟩

theorem encodedInI_of_format {mk} (hf : formatOf op = some (.i mk)) : encodedInI op mk := by
  rintro c rfl
  rw [decode_eq_format, hf]
  exact ⟨fun hz => if_pos hz, fun hz => if_neg hz⟩

theorem encodedInL_of_format {mk} (hf : formatOf op = some (.l mk)) : encodedInL op mk := by
  rintro c rfl
  rw [decode_eq_format, hf]
  exact ⟨fun hz => if_pos hz, fun hz => if_neg hz⟩

theorem encodedInQ_of_format {mk} (hf : formatOf op = some (.q mk)) : encodedInQ op mk := by
  rintro c rfl
  rw [decode_eq_format, hf, Option.elim_some, Format.decode, decodeQ]
  refine ⟨fun hz hne => by rw [if_pos hz, if_neg hne], fun h => ?_⟩
  by_cases hz : field c 7 0 = 0
  · exact ⟨_, by rw [if_pos hz, if_pos (h.resolve_left (not_not_intro hz))]⟩
  · exact ⟨_, if_neg hz⟩

end

section
variable {op : Nat} {c : Word32} {rd ra rb : RegNum}

/-- Format R: the fields of R62's formula are read back. -/
theorem decode_packedR {mk} (hf : formatOf op = some (.r mk)) (hc : c.toNat = packWord op rd ra rb 0) :
    decode c = .ok (mk rd ra rb) := by
  have hlow : 0 + rb.val * 2 ^ 12 < 2 ^ 16 := by omega
  have hop := opField_packWord hc hlow (formatOf_lt hf)
  rw [(encodedInR_of_format hf c hop).1 (low12_packWord hc (by decide)), rdField_packWord hc hlow,
    raField_packWord hc hlow, rbField_packWord hc (by decide)]

/-- Format U: the same, with no rb. -/
theorem decode_packedU {mk} (hf : formatOf op = some (.u mk)) (hc : c.toNat = packWord op rd ra 0 0) :
    decode c = .ok (mk rd ra) := by
  have hlow : 0 + (0 : RegNum).val * 2 ^ 12 < 2 ^ 16 := by decide
  have hop := opField_packWord hc hlow (formatOf_lt hf)
  rw [(encodedInU_of_format hf c hop).1 (low16_packWord hc hlow), rdField_packWord hc hlow, raField_packWord hc hlow]

/-- Format I: the low part is the count. -/
theorem decode_packedI {mk} {imm12 : BitVec 12} (hf : formatOf op = some (.i mk))
    (hc : c.toNat = packWord op rd ra 0 imm12.toNat) : decode c = .ok (mk rd ra imm12) := by
  have hlow : imm12.toNat + (0 : RegNum).val * 2 ^ 12 < 2 ^ 16 := by simp only [Fin.val_zero]; omega
  have hop := opField_packWord hc hlow (formatOf_lt hf)
  rw [(encodedInI_of_format hf c hop).1 (bits1512_packWord hc imm12.isLt), rdField_packWord hc hlow,
    raField_packWord hc hlow, imm12Field, low12_packWord hc imm12.isLt, BitVec.ofNat_toNat, BitVec.setWidth_eq]

/-- Format L: the low part is the seed, which fills the rb field too. -/
theorem decode_packedL {mk} {imm16 : BitVec 16} (hf : formatOf op = some (.l mk))
    (hc : c.toNat = packWord op rd 0 0 imm16.toNat) : decode c = .ok (mk rd imm16) := by
  have hlow : imm16.toNat + (0 : RegNum).val * 2 ^ 12 < 2 ^ 16 := by simp only [Fin.val_zero]; omega
  have hop := opField_packWord hc hlow (formatOf_lt hf)
  rw [(encodedInL_of_format hf c hop).1 (bits1916_packWord hc hlow), rdField_packWord hc hlow, imm16Field,
    low16_packWord hc hlow, Fin.val_zero, Nat.zero_mul, Nat.add_zero, BitVec.ofNat_toNat, BitVec.setWidth_eq]

/-- Format Q: the low part is rr in its place; the word decodes if the destinations differ. -/
theorem decode_packedQ {mk} {rr : RegNum} (hf : formatOf op = some (.q mk)) (hne : rd ≠ rr)
    (hc : c.toNat = packWord op rd ra rb (rr.val * 2 ^ 8)) : decode c = .ok (mk rd rr ra rb) := by
  have hlow : rr.val * 2 ^ 8 + rb.val * 2 ^ 12 < 2 ^ 16 := by omega
  have hlow12 : rr.val * 2 ^ 8 < 2 ^ 12 := Nat.mul_lt_mul_of_pos_right rr.isLt (by decide)
  have hfield : c.toNat / 2 ^ 0 % 2 ^ 12 = rr.val * 2 ^ 8 := low12_packWord hc hlow12
  have hrr : rrField c = rr := by
    apply Fin.ext
    simp only [rrField, Fin.ofNat, field]
    omega
  have hz : field c 7 0 = 0 := by
    simp only [field]
    omega
  have hrd := rdField_packWord hc hlow
  have hop := opField_packWord hc hlow (formatOf_lt hf)
  rw [(encodedInQ_of_format hf c hop).1 hz (by rwa [hrd, hrr]), hrd, hrr, raField_packWord hc hlow,
    rbField_packWord hc hlow12]

end

/-- Settles O2: the encoder loses no bit, so the fields it packs are read back, format by format. -/
theorem decodeOfEncodeIsTheCommand : Obligations.DecodeOfEncodeIsTheCommand := by
  intro i hw
  cases i with
  | li rd imm16 => exact decode_packedL rfl (EncodeExact.li rd imm16)
  | mov rd ra => exact decode_packedU rfl (EncodeExact.mov rd ra)
  | bits rd ra => exact decode_packedU rfl (EncodeExact.bits rd ra)
  | shl rd ra rb => exact decode_packedR rfl (EncodeExact.shl rd ra rb)
  | shr rd ra rb => exact decode_packedR rfl (EncodeExact.shr rd ra rb)
  | shli rd ra imm12 => exact decode_packedI rfl (EncodeExact.shli rd ra imm12)
  | shri rd ra imm12 => exact decode_packedI rfl (EncodeExact.shri rd ra imm12)
  | add rd ra rb => exact decode_packedR rfl (EncodeExact.add rd ra rb)
  | sub rd ra rb => exact decode_packedR rfl (EncodeExact.sub rd ra rb)
  | neg rd ra => exact decode_packedU rfl (EncodeExact.neg rd ra)
  | not rd ra => exact decode_packedU rfl (EncodeExact.not rd ra)
  | inc rd ra => exact decode_packedU rfl (EncodeExact.inc rd ra)
  | dec rd ra => exact decode_packedU rfl (EncodeExact.dec rd ra)
  | mul rd ra rb => exact decode_packedR rfl (EncodeExact.mul rd ra rb)
  | div rd ra rb => exact decode_packedR rfl (EncodeExact.div rd ra rb)
  | mod rd ra rb => exact decode_packedR rfl (EncodeExact.mod rd ra rb)
  | divmod rd rr ra rb => exact decode_packedQ rfl (of_decide_eq_true hw) (EncodeExact.divmod rd rr ra rb)

/-! ## Masks (R64, R65 (b)) -/

/-- The mask of the bits hi to lo. -/
def fieldMask (hi lo : Nat) : Word32 := BitVec.ofNat 32 ((2 ^ (hi + 1 - lo) - 1) * 2 ^ lo)

/-- C AND the mask of a field is the field in its place. -/
theorem toNat_and_fieldMask (c : Word32) (hi lo : Nat) : (c &&& fieldMask hi lo).toNat = field c hi lo * 2 ^ lo := by
  apply Nat.eq_of_testBit_eq
  intro k
  have hbit : 32 ≤ k → c.toNat.testBit k = false := fun hk => by rw [BitVec.testBit_toNat, BitVec.getLsbD_of_ge c k hk]
  simp only [fieldMask, field, BitVec.toNat_and, BitVec.toNat_ofNat, Nat.testBit_and, Nat.testBit_mod_two_pow,
    Nat.testBit_mul_two_pow, Nat.testBit_two_pow_sub_one, Nat.testBit_div_two_pow]
  by_cases hlo : lo ≤ k
  · rw [Nat.sub_add_cancel hlo]
    by_cases hk : k < 32
    · simp [hlo, hk, Bool.and_comm]
    · simp [hbit (Nat.le_of_not_lt hk)]
  · simp [hlo]

theorem and_fieldMask_eq_iff (c : Word32) {hi lo v : Nat} (hv : v * 2 ^ lo < 2 ^ 32) :
    c &&& fieldMask hi lo = BitVec.ofNat 32 (v * 2 ^ lo) ↔ field c hi lo = v := by
  rw [← BitVec.toNat_inj, toNat_and_fieldMask, BitVec.toNat_ofNat, Nat.mod_eq_of_lt hv,
    Nat.mul_left_inj (Nat.two_pow_pos lo).ne']

/-- A word agrees with a pattern under two masks exactly when it does so under the first and its bits under the second,
where the pattern has none, are 0. -/
theorem and_or_eq_iff {w : Nat} {c a b p : BitVec w} (hb : p &&& b = 0) :
    c &&& (a ||| b) = p ↔ c &&& a = p ∧ c &&& b = 0 := by
  have habsorb : c &&& b = c &&& (a ||| b) &&& b := by
    ext k
    simp only [BitVec.getElem_and, BitVec.getElem_or]
    grind
  have hsplit : c &&& (a ||| b) = c &&& a ||| c &&& b := by
    ext k
    simp only [BitVec.getElem_and, BitVec.getElem_or, Bool.and_or_distrib_left]
  constructor
  · intro h
    have h0 : c &&& b = 0 := by rw [habsorb, h, hb]
    refine ⟨?_, h0⟩
    rw [← h, hsplit, h0]
    simp
  · rintro ⟨h, h0⟩
    rw [hsplit, h, h0]
    simp

namespace Format

/-- The mask of the bits that the format marks 0 (R62). -/
def zeroMask : Format → Word32
  | r _ => fieldMask 11 0
  | u _ => fieldMask 15 0
  | i _ => fieldMask 15 12
  | l _ => fieldMask 19 16
  | q _ => fieldMask 7 0

theorem and_zeroMask_eq_zero_iff (f : Format) (c : Word32) : c &&& f.zeroMask = 0 ↔ f.zeroField c = 0 := by
  cases f <;> exact and_fieldMask_eq_iff c (v := 0) (by decide)

/-- The row of R64's table for an opcode with this format. -/
def row (op : Nat) (f : Format) : OpcodeRow :=
  ⟨(f.read 0).mnemonic, BitVec.ofNat 32 (op * 2 ^ 24), fieldMask 31 24 ||| f.zeroMask⟩

/-- A word matches a row exactly when its opcode is the row's and its zero bits are zero. -/
theorem matches_row_iff (f : Format) {op : Nat} (hop : op < 256) (c : Word32) :
    c &&& (f.row op).mask = (f.row op).pattern ↔ opField c = op ∧ f.zeroField c = 0 := by
  have hpattern : BitVec.ofNat 32 (op * 2 ^ 24) &&& f.zeroMask = 0 := by
    rw [and_zeroMask_eq_zero_iff]
    cases f <;>
    · simp only [zeroField, field, BitVec.toNat_ofNat]
      omega
  rw [row, and_or_eq_iff hpattern, and_fieldMask_eq_iff c (by omega), and_zeroMask_eq_zero_iff, opField]

end Format

/-! ## The opcode table (R64) -/

/-- The opcode table is the list of the rows of the seventeen opcodes. -/
theorem opcodeTable_eq_rows : opcodeTable = assignedOpcodes.filterMap fun op => (formatOf op).map (Format.row op) := by
  decide

theorem mem_opcodeTable_iff {row : OpcodeRow} : row ∈ opcodeTable ↔ ∃ op f, formatOf op = some f ∧ f.row op = row := by
  simp only [opcodeTable_eq_rows, List.mem_filterMap, Option.map_eq_some_iff]
  constructor
  · rintro ⟨op, -, h⟩
    exact ⟨op, h⟩
  · rintro ⟨op, f, hf, h⟩
    exact ⟨op, mem_assignedOpcodes_iff.mpr ⟨f, hf⟩, f, hf, h⟩

theorem opcodeTable_mnemonic_inj {row row' : OpcodeRow} (h : row ∈ opcodeTable) (h' : row' ∈ opcodeTable)
    (hm : row.mnemonic = row'.mnemonic) : row = row' := by
  have hnodup : (opcodeTable.map OpcodeRow.mnemonic).Nodup := by decide
  exact List.inj_on_of_nodup_map hnodup h h' hm

/-- Settles O4: a command's mnemonic names one row, the row of its word's opcode. -/
theorem wordSelectsRowByMatchAndMask : Obligations.WordSelectsRowByMatchAndMask := by
  intro row hrow c
  obtain ⟨op, f, hf, rfl⟩ := mem_opcodeTable_iff.mp hrow
  constructor
  · rintro ⟨i, hd, hm⟩
    obtain ⟨g, hg, hz, hw, rfl⟩ := decode_eq_ok_iff.mp hd
    have hsame : g.row (opField c) = f.row op :=
      opcodeTable_mnemonic_inj (mem_opcodeTable_iff.mpr ⟨_, _, hg, rfl⟩) hrow ((mnemonic_read hg c).symm.trans hm)
    rw [← hm, ← wellFormed_read_iff_mnemonic hg, ← hsame]
    exact ⟨(g.matches_row_iff (formatOf_lt hg) c).mpr ⟨rfl, hz⟩, hw⟩
  · rintro ⟨hmatch, hne⟩
    obtain ⟨rfl, hz⟩ := (f.matches_row_iff (formatOf_lt hf) c).mp hmatch
    have hm : (f.read c).mnemonic = (f.row (opField c)).mnemonic := mnemonic_read hf c
    rw [← hm, ← wellFormed_read_iff_mnemonic hf] at hne
    exact ⟨f.read c, decode_eq_ok_iff.mpr ⟨f, hf, hz, hne, rfl⟩, hm⟩

/-! ## Illegal words (R65) -/

/-- The bits of R65 (b) are those that the opcode's format marks 0. -/
theorem mustBeZeroBits_eq {op : Nat} {f : Format} (hf : formatOf op = some f) : mustBeZeroBits op = f.zeroMask := by
  unfold formatOf at hf
  split at hf <;> cases hf <;> rfl

theorem exists_error_iff (c : Word32) : (∃ e, decode c = .error e) ↔ ¬ ∃ i, decode c = .ok i := by
  cases decode c <;> simp

/-- Under an assigned opcode a word is legal unless clause (b) or (c) of R65 holds. -/
theorem exists_ok_iff {c : Word32} {f : Format} (hf : formatOf (opField c) = some f) :
    (∃ i, decode c = .ok i) ↔ f.zeroField c = 0 ∧ ¬ f.SameDest c := by
  constructor
  · rintro ⟨i, h⟩
    obtain ⟨g, hg, hz, hw, rfl⟩ := decode_eq_ok_iff.mp h
    cases hf.symm.trans hg
    exact ⟨hz, (wellFormed_read hf c).mp hw⟩
  · rintro ⟨hz, hs⟩
    exact ⟨f.read c, decode_eq_ok_iff.mpr ⟨f, hf, hz, (wellFormed_read hf c).mpr hs, rfl⟩⟩

/-- The three clauses of R65. -/
theorem illegal_iff (c : Word32) : (∃ e, decode c = .error e) ↔
    (opField c ∉ assignedOpcodes ∨ c &&& mustBeZeroBits (opField c) ≠ 0 ∨ (opField c = 0x52 ∧ rdField c = rrField c)) := by
  cases hf : formatOf (opField c) with
  | none =>
    have hillegal : decode c = .error .unassignedOpcode := by rw [decode_eq_format, hf, Option.elim_none]
    have hop : opField c ∉ assignedOpcodes := by simp [mem_assignedOpcodes_iff, hf]
    exact iff_of_true ⟨_, hillegal⟩ (.inl hop)
  | some f =>
    have hop : opField c ∈ assignedOpcodes := mem_assignedOpcodes_iff.mpr ⟨f, hf⟩
    rw [exists_error_iff, exists_ok_iff hf, not_and_or, not_not, sameDest_iff hf, mustBeZeroBits_eq hf, Ne,
      f.and_zeroMask_eq_zero_iff, or_iff_right (not_not_intro hop)]

theorem issue_of_error {c : Word32} {e : Illegal} (s : State) (h : decode c = .error e) :
    issue s c = .next (s.raise .illegalCmd c none) := by
  rw [issue, h]

/-- 239 of the 256 opcode values are unassigned: the assigned ones are 17 distinct values among them. -/
theorem length_unassigned : ((List.range 256).filter fun op => op ∉ assignedOpcodes).length = 239 := by
  have hsub : assignedOpcodes ⊆ List.range 256 := fun op h => by
    obtain ⟨f, hf⟩ := mem_assignedOpcodes_iff.mp h
    exact List.mem_range.mpr (formatOf_lt hf)
  have hperm := List.subperm_append_diff_self_of_count_le
    (List.subperm_ext_iff.mp (List.subperm_of_subset (by decide : assignedOpcodes.Nodup) hsub))
  have hlen := hperm.length_eq
  rw [List.length_append, List.nodup_range.sdiff_eq_filter, List.length_range,
    show assignedOpcodes.length = 17 from rfl] at hlen
  exact Nat.add_left_cancel hlen

/-- Settles O5: the three clauses, the ILLEGAL_CMD entry as the whole effect of the step, and the counts. -/
theorem wordIsIllegalExactlyByTheThreeClauses : Obligations.WordIsIllegalExactlyByTheThreeClauses := by
  refine ⟨illegal_iff, fun s c rest e hs hd => ?_, by decide, rfl, length_unassigned⟩
  rw [step_cons s _ rest hs, perform, ctlWrite_cmd, issue_of_error _ hd]
  rfl

/-- Settles O1: the decoder evaluated on the twelve words. -/
theorem sampleWordsDecodeAsTheSpecLists : Obligations.SampleWordsDecodeAsTheSpecLists := by
  unfold Obligations.SampleWordsDecodeAsTheSpecLists
  decide

end Sys2Proof.Proofs

/-! PROOFS. The limb storage commands (R80 to R82): the frame of every command, the seed that LI loads and the copy that
MOV makes. -/

namespace Sys2Proof.Proofs

open Sys2Proof.Machine Sys2Proof.Laws

/-! ## The frame of every command -/

/-- Settles O26: `exec_keepsReg` keeps every other register, and each end of a command is a write with OKAY, which keeps
the error record, or the error entry, which keeps the registers. -/
theorem commandChangesOnlyItsDestinations : Obligations.CommandChangesOnlyItsDestinations := by
  intro i s t h
  have hregs (r : RegNum) (hr : r ∉ i.dests) : KeepsReg r s t := exec_keepsReg hr h
  rcases exec_cases i s with ⟨rd, y, -, he⟩ | ⟨rd, rr, q, m, -, -, he⟩ | ⟨c, he⟩
  · cases h.symm.trans he
    exact ⟨rfl, .rfl, hregs, .inl ⟨rfl, rfl, rfl, rfl⟩⟩
  · cases h.symm.trans he
    exact ⟨rfl, .rfl, hregs, .inl ⟨rfl, rfl, rfl, rfl⟩⟩
  · cases h.symm.trans he
    exact ⟨rfl, .rfl, hregs, .inr ⟨rfl, .rfl⟩⟩

/-! ## LI and MOV -/

/-- Reducing modulo 2^(N × W) leaves the digits below N in base 2^W as they are. -/
theorem mod_two_pow_digit {N i : Nat} (W v : Nat) (h : i < N) :
    v % 2 ^ (N * W) / 2 ^ (W * i) % 2 ^ W = v / 2 ^ (W * i) % 2 ^ W := by
  have hsplit : N * W = W * i + (N - i) * W := by rw [Nat.mul_comm W, ← Nat.add_mul, Nat.add_sub_of_le h.le]
  have hdvd : 2 ^ W ∣ 2 ^ ((N - i) * W) := Nat.pow_dvd_pow 2 (Nat.le_mul_of_pos_left W (Nat.sub_pos_of_lt h))
  rw [hsplit, Nat.pow_add, Nat.mod_mul_right_div_self, Nat.mod_mod_of_dvd _ hdvd]

/-- Limb i of the seed is digit i of imm16 in base 2^W (R81, R12). -/
theorem limbAt_immSeed {W N i : Nat} (imm16 : BitVec 16) (h : i < N) :
    (limbAt (immSeed imm16 : Wide W N) i).toNat = imm16.toNat / 2 ^ (W * i) % 2 ^ W := by
  rw [limbAt_toNat, val_immSeed, mod_two_pow_digit W imm16.toNat h]

/-- Settles O8: the opcode's format is L, and LI commits the seed, whose number and limbs are known. -/
theorem liLoadsTheZeroExtendedSeed : Obligations.LiLoadsTheZeroExtendedSeed :=
  ⟨encodedInL_of_format rfl, fun _ _ imm16 => ⟨immSeed imm16, rfl, val_immSeed imm16, fun _ => limbAt_immSeed imm16⟩⟩

/-- Settles O9: the opcode's format is U, and MOV commits the source register itself. -/
theorem movCopiesEveryLimb : Obligations.MovCopiesEveryLimb :=
  ⟨encodedInU_of_format rfl, fun s _ ra => ⟨s.reg ra, rfl, fun _ _ => rfl⟩⟩

end Sys2Proof.Proofs

/-! PROOFS. The bit scan (R90 to R93) and the comparator (R95, R96): the highest set bit and its two-encoder count, and the
two orderings of wide values. -/

namespace Sys2Proof.Proofs

open Sys2Proof.Machine Sys2Proof.Laws

variable {W N : Nat}

/-! ## Bit scan -/

theorem bitAt_msb (hW : 0 < W) {x : Wide W N} (h : val x ≠ 0) : bitAt x (msb x) = true := by
  rw [bitAt_eq_testBit hW, msb_eq_log2]
  exact Nat.testBit_log2 h

theorem bitAt_of_msb_lt (hW : 0 < W) {x : Wide W N} {k : Nat} (h : msb x < k) : bitAt x k = false := by
  rw [bitAt_eq_testBit hW]
  exact Nat.testBit_lt_two_pow ((lt_two_pow_msb_succ x).trans_le (Nat.pow_le_pow_right (by decide) h))

/-- The case that R91 settles by convention. -/
theorem msb_of_val_eq_zero {x : Wide W N} (h : val x = 0) : msb x = 0 := by
  rw [msb, if_pos h]

/-- The index is at most B - 1, so it fits in a wide value (R93). -/
theorem val_wide_msb (hB : 0 < N * W) (x : Wide W N) : val (wide (msb x : Int) : Wide W N) = msb x :=
  val_wide_of_lt ((msb_lt hB x).trans Nat.lt_two_pow_self)

/-- Settles O10: the opcode's format is U, and BITS commits the index `msb` of the source register. -/
theorem bitsWritesTheIndexOfTheHighestSetBit : Obligations.BitsWritesTheIndexOfTheHighestSetBit := by
  refine ⟨encodedInU_of_format rfl, fun s rd ra => ⟨wide (msb (s.reg ra) : Int), rfl, ?_⟩⟩
  rw [val_wide_msb s.cfg.B_pos]
  exact ⟨msb_lt s.cfg.B_pos _, msb_of_val_eq_zero,
    fun h => ⟨bitAt_msb s.cfg.W_pos h, fun _ => bitAt_of_msb_lt s.cfg.W_pos⟩⟩

/-- The leading zeros of the high half are those of the limb; a zero high half adds h to those of the low half (R92). -/
theorem clzHalves_eq_clz (he : W % 2 = 0) {a : Limb W} (ha : a ≠ 0) : clzHalves a = clz a := by
  have hn : a.toNat ≠ 0 := fun h => ha (BitVec.eq_of_toNat_eq h)
  have hhigh : a.toNat / 2 ^ (W / 2) < 2 ^ (W / 2) := Nat.div_lt_of_lt_mul (two_pow_eq_half_mul_half he ▸ a.isLt)
  rw [clzHalves]
  simp only [clz, Ne, ← BitVec.toNat_inj, BitVec.toNat_ofNat, Nat.mod_mod, Nat.mod_eq_of_lt hhigh]
  split
  next h =>
    have hlog : Nat.log2 (a.toNat / 2 ^ (W / 2)) = Nat.log2 a.toNat - W / 2 := by
      rw [Nat.log2_eq_log_two, Nat.log2_eq_log_two, Nat.log_div_base_pow]
    have hge : W / 2 ≤ Nat.log2 a.toNat :=
      (Nat.le_log2 hn).mpr (not_lt.mp fun hlt => h (Nat.div_eq_of_lt hlt))
    omega
  next h =>
    have hlow : a.toNat < 2 ^ (W / 2) := Nat.lt_of_div_eq_zero (Nat.two_pow_pos _) (of_not_not h)
    have hlog : Nat.log2 a.toNat < W / 2 := (Nat.log2_lt hn).mpr hlow
    rw [Nat.mod_eq_of_lt hlow]
    omega

/-- Settles O33: the scan is `msb`, whose bit is set with none above it, and the two encoders count as the one does. -/
theorem bitScanFindsTheHighestSetBit : Obligations.BitScanFindsTheHighestSetBit := fun cfg x =>
  ⟨msbUnit_eq_msb x, msb_of_val_eq_zero, fun h => ⟨bitAt_msb cfg.W_pos h, fun _ => bitAt_of_msb_lt cfg.W_pos⟩,
    fun _ => clzHalves_eq_clz cfg.W_even⟩

/-! ## Unsigned order -/

theorem ltuUnit_iff (x y : Wide W N) : ltuUnit x y = true ↔ val x < val y := by
  rw [ltuUnit_eq_ltu, ltu_iff]

theorem equ_iff_limbAt (x y : Wide W N) : equ x y = true ↔ ∀ i, i < N → limbAt x i = limbAt y i := by
  rw [equ, decide_eq_true_iff]
  exact ⟨fun h _ _ => h ▸ rfl, wide_ext_limb⟩

/-- Settles O34: the scan decides `ltu`, `geu` is its negation, and equality is that of the limbs. -/
theorem comparatorIsTheUnsignedOrder : Obligations.ComparatorIsTheUnsignedOrder := fun _ x y =>
  ⟨ltuUnit_iff x y, geuUnit_iff x y, equ_iff_limbAt x y⟩

/-! ## Signed order -/

/-- The sign bit of the value is the sign bit of its top limb (R9). -/
theorem bitAt_top_eq_msb (hW : 0 < W) {n : Nat} (x : Wide W (n + 1)) :
    bitAt x ((n + 1) * W - 1) = (limbAt x n).msb := by
  have hidx : (n + 1) * W - 1 = W * n + (W - 1) := by rw [Nat.succ_mul, Nat.mul_comm, Nat.add_sub_assoc hW]
  rw [hidx, bitAt_limb x n (Nat.sub_lt hW Nat.one_pos), BitVec.msb_eq_getLsbD_last]

/-- The signed value is the top limb, read as signed, above the number of the lower limbs. -/
theorem sval_eq_low_add_top (hW : 0 < W) {n : Nat} (x : Wide W (n + 1)) :
    sval x = (val x % 2 ^ (W * n) : Nat) + (limbAt x n).toInt * 2 ^ (W * n) := by
  have hval : (val x : Int) = (val x % 2 ^ (W * n) : Nat) + (limbAt x n).toNat * 2 ^ (W * n) := by
    have h := val_mod_succ x n
    rw [val_mod_all] at h
    exact_mod_cast h
  have hpow : (2 : Int) ^ ((n + 1) * W) = 2 ^ W * 2 ^ (W * n) := by
    rw [Nat.succ_mul, Nat.mul_comm, Nat.add_comm, pow_add]
  rw [sval, bitAt_top_eq_msb hW, BitVec.toInt_eq_msb_cond, hval, hpow]
  split
  · push_cast
    ring
  · rfl

/-- A smaller signed top digit makes a smaller number, whatever the lower digits. -/
theorem add_mul_lt_of_int_lt {a b : Int} {l m p : Nat} (hl : l < p) (h : a < b) : (l : Int) + a * p < m + b * p := by
  have hmul : (a + 1) * p ≤ b * p := Int.mul_le_mul_of_nonneg_right h (Int.natCast_nonneg p)
  rw [add_mul, one_mul] at hmul
  omega

theorem add_mul_lt_iff_of_int_ne {a b : Int} {l m p : Nat} (hne : a ≠ b) (hl : l < p) (hm : m < p) :
    (l : Int) + a * p < m + b * p ↔ a < b := by
  rcases Int.lt_or_gt_of_ne hne with h | h
  · exact iff_of_true (add_mul_lt_of_int_lt hl h) h
  · exact iff_of_false (add_mul_lt_of_int_lt hm h).asymm h.asymm

/-- Differing top limbs decide the signed order; under equal ones the lower limbs do, as unsigned numbers (R96). -/
theorem ltsUnit_iff (hW : 0 < W) (hN : 0 < N) (x y : Wide W N) : ltsUnit x y = true ↔ sval x < sval y := by
  obtain ⟨n, rfl⟩ := Nat.exists_eq_add_one.mpr hN
  rw [ltsUnit, Nat.add_sub_cancel, sval_eq_low_add_top hW x, sval_eq_low_add_top hW y]
  split
  next hne =>
    rw [BitVec.slt_iff_toInt_lt]
    exact_mod_cast (add_mul_lt_iff_of_int_ne (mt BitVec.toInt_inj.mp hne) (Nat.mod_lt _ (Nat.two_pow_pos _))
      (Nat.mod_lt _ (Nat.two_pow_pos _))).symm
  next heq =>
    rw [of_not_not heq, ltuBelow_eq_decide, decide_eq_true_iff, Int.add_lt_add_iff_right, Int.ofNat_lt]

/-- Settles O35: every build has a top limb, and `ltsUnit` decides the order there. -/
theorem signedComparisonIsTheOrderOfSignedValues : Obligations.SignedComparisonIsTheOrderOfSignedValues := fun cfg =>
  ltsUnit_iff cfg.W_pos cfg.N_pos

end Sys2Proof.Proofs

/-! PROOFS. The logical shifts (R102, R103, R107): number and bits of a shifted value, from which the four shift commands
(R109 to R112) follow, and the laws of R113, bit by bit. -/

namespace Sys2Proof.Proofs

open Sys2Proof.Machine Sys2Proof.Laws

variable {W N : Nat}

/-! ## The four shift commands -/

/-- A left shift by s: ZERO from B on, below B the number modulo 2^B, and every bit (R102, R107). -/
theorem shl_number_and_bits (hW : 0 < W) (x : Wide W N) (s : Nat) :
    (N * W ≤ s → val (shl x s) = 0) ∧ (s < N * W → val (shl x s) = val x * 2 ^ s % 2 ^ (N * W)) ∧
    ∀ k, k < N * W → bitAt (shl x s) k = (decide (s ≤ k) && bitAt x (k - s)) :=
  ⟨fun h => (val_eq_zero_iff _).mpr (shl_of_ge x h), val_shl_of_lt x, fun _ => bitAt_shl hW x s⟩

/-- Zeros enter at the top of a right shift: the bits that come from above B are 0 (R101, R103). -/
theorem bitAt_shr_eq_and (hW : 0 < W) (x : Wide W N) (s k : Nat) :
    bitAt (shr x s) k = (decide (k + s < N * W) && bitAt x (k + s)) := by
  rw [bitAt_shr hW]
  by_cases h : k + s < N * W
  · rw [decide_eq_true h, Bool.true_and]
  · rw [decide_eq_false h, Bool.false_and, bitAt_of_ge hW x _ (Nat.not_lt.mp h)]

/-- A right shift by s: ZERO from B on, below B the quotient by 2^s, and every bit (R103, R107). -/
theorem shr_number_and_bits (hW : 0 < W) (x : Wide W N) (s : Nat) :
    (N * W ≤ s → val (shr x s) = 0) ∧ (s < N * W → val (shr x s) = val x / 2 ^ s) ∧
    ∀ k, k < N * W → bitAt (shr x s) k = (decide (k + s < N * W) && bitAt x (k + s)) :=
  ⟨fun h => (val_eq_zero_iff _).mpr (shr_of_ge x h), val_shr_of_lt x, fun k _ => bitAt_shr_eq_and hW x s k⟩

/-- Settles O11: the opcode's format is R, and SHL commits `shl` by the number in w[rb]. -/
theorem shlShiftsLeftByTheWholeRegister : Obligations.ShlShiftsLeftByTheWholeRegister :=
  ⟨encodedInR_of_format rfl, fun s _ ra rb =>
    ⟨shl (s.reg ra) (s.regVal rb), rfl, shl_number_and_bits s.cfg.W_pos (s.reg ra) (s.regVal rb)⟩⟩

/-- Settles O12: the opcode's format is R, and SHR commits `shr` by the number in w[rb]. -/
theorem shrShiftsRightLogicallyByTheWholeRegister : Obligations.ShrShiftsRightLogicallyByTheWholeRegister :=
  ⟨encodedInR_of_format rfl, fun s _ ra rb =>
    ⟨shr (s.reg ra) (s.regVal rb), rfl, shr_number_and_bits s.cfg.W_pos (s.reg ra) (s.regVal rb)⟩⟩

/-- Settles O13: the opcode's format is I, and SHLI commits `shl` by the immediate. -/
theorem shliShiftsLeftByTheImmediate : Obligations.ShliShiftsLeftByTheImmediate :=
  ⟨encodedInI_of_format rfl, fun s _ ra imm12 =>
    ⟨shl (s.reg ra) imm12.toNat, rfl, shl_number_and_bits s.cfg.W_pos (s.reg ra) imm12.toNat⟩⟩

/-- Settles O14: the opcode's format is I, and SHRI commits `shr` by the immediate. -/
theorem shriShiftsRightLogicallyByTheImmediate : Obligations.ShriShiftsRightLogicallyByTheImmediate :=
  ⟨encodedInI_of_format rfl, fun s _ ra imm12 =>
    ⟨shr (s.reg ra) imm12.toNat, rfl, shr_number_and_bits s.cfg.W_pos (s.reg ra) imm12.toNat⟩⟩

/-! ## The laws of R113 -/

theorem shl_zero (hW : 0 < W) (x : Wide W N) : shl x 0 = x :=
  wide_ext_bit hW fun k hk => by
    rw [bitAt_shl hW x 0 hk, decide_eq_true (Nat.zero_le k), Bool.true_and, Nat.sub_zero]

theorem shr_zero (hW : 0 < W) (x : Wide W N) : shr x 0 = x :=
  wide_ext_bit hW fun k _ => by rw [bitAt_shr hW, Nat.add_zero]

theorem shl_shl (hW : 0 < W) (x : Wide W N) (s t : Nat) : shl (shl x s) t = shl x (s + t) := by
  apply wide_ext_bit hW
  intro k hk
  have hcount : (t ≤ k ∧ s ≤ k - t) ↔ s + t ≤ k := by omega
  rw [bitAt_shl hW _ t hk, bitAt_shl hW x s (Nat.lt_of_le_of_lt (Nat.sub_le k t) hk), bitAt_shl hW x (s + t) hk,
    ← Bool.and_assoc, ← Bool.decide_and, decide_eq_decide.mpr hcount, Nat.sub_sub, Nat.add_comm t]

theorem shr_shr (hW : 0 < W) (x : Wide W N) (s t : Nat) : shr (shr x s) t = shr x (s + t) :=
  wide_ext_bit hW fun k _ => by rw [bitAt_shr hW, bitAt_shr hW, bitAt_shr hW, Nat.add_assoc, Nat.add_comm t]

/-- Left and then right by s clears the top s bits and keeps the others. -/
theorem bitAt_shr_shl (hW : 0 < W) (x : Wide W N) (s k : Nat) :
    bitAt (shr (shl x s) s) k = (decide (k + s < N * W) && bitAt x k) := by
  rw [bitAt_shr_eq_and hW]
  by_cases h : k + s < N * W
  · rw [bitAt_shl hW x s h, decide_eq_true (Nat.le_add_left s k), Bool.true_and, Nat.add_sub_cancel]
  · rw [decide_eq_false h, Bool.false_and, Bool.false_and]

/-- The round trip restores x exactly when the top s bits, which it clears, are zero (R113). -/
theorem shr_shl_eq_self_iff (hW : 0 < W) (x : Wide W N) (s : Nat) :
    shr (shl x s) s = x ↔ ∀ k, N * W - s ≤ k → k < N * W → bitAt x k = false := by
  constructor
  · intro h k hge _
    have hbit := bitAt_shr_shl hW x s k
    rwa [h, decide_eq_false (by omega), Bool.false_and] at hbit
  · intro h
    apply wide_ext_bit hW
    intro k hk
    rw [bitAt_shr_shl hW]
    by_cases hlow : k + s < N * W
    · rw [decide_eq_true hlow, Bool.true_and]
    · rw [decide_eq_false hlow, Bool.false_and, h k (by omega) hk]

/-- Settles O30: both units compute the shifts, and each law holds bit by bit. -/
theorem shifterComputesTheShiftsAndTheirLaws : Obligations.ShifterComputesTheShiftsAndTheirLaws := fun cfg x =>
  ⟨fun s => ⟨shlUnit_eq_shl cfg.W_pos x s, shrUnit_eq_shr cfg.W_pos x s⟩, shl_zero cfg.W_pos x, shr_zero cfg.W_pos x,
    fun s t => ⟨shl_shl cfg.W_pos x s t, shr_shr cfg.W_pos x s t⟩, shr_shl_eq_self_iff cfg.W_pos x⟩

end Sys2Proof.Proofs

/-! PROOFS. The add/subtract commands (R129 to R134), the ripple units of R122 and R125, and the laws of R135: a sum, a
difference, a negation and a complement are each `wide` of the integer result, so a law is one on the integers modulo 2^B. -/

namespace Sys2Proof.Proofs

open Sys2Proof.Machine Sys2Proof.Laws

variable {W N : Nat}

/-! ## The number that each operation gives -/

theorem val_sub_eq_ite (x y : Wide W N) :
    val (sub x y) = if val y ≤ val x then val x - val y else val x + 2 ^ (N * W) - val y := by
  have hsub := val_sub x y
  have hx : (val x : Int) < 2 ^ (N * W) := mod_cast val_lt x
  have hy : (val y : Int) < 2 ^ (N * W) := mod_cast val_lt y
  have hpow : ((2 ^ (N * W) : Nat) : Int) = 2 ^ (N * W) := Nat.cast_pow 2 (N * W)
  split
  next hle =>
    rw [Int.emod_eq_of_lt (by omega) (by omega)] at hsub
    omega
  next hlt =>
    rw [← Int.add_emod_right, Int.emod_eq_of_lt (by omega) (by omega)] at hsub
    omega

theorem val_notw (x : Wide W N) : val (notw x) = 2 ^ (N * W) - 1 - val x := by
  have h := val_notw_add x
  omega

theorem limbAt_notw_toNat (x : Wide W N) {i : Nat} (hi : i < N) :
    (limbAt (notw x) i).toNat = 2 ^ W - 1 - (limbAt x i).toNat := by
  rw [limbAt_notw x i hi, BitVec.toNat_not]

theorem val_neg (hB : 0 < N * W) (x : Wide W N) : val (neg x) = (2 ^ (N * W) - val x) % 2 ^ (N * W) := by
  have hnot : val (notw x) + 1 = 2 ^ (N * W) - val x := by
    have h := val_notw_add x
    omega
  rw [neg, val_add, val_wOne hB, hnot]

theorem val_inc (hB : 0 < N * W) (x : Wide W N) : val (inc x) = (val x + 1) % 2 ^ (N * W) := by
  rw [inc, val_add, val_wOne hB]

/-- The borrow reaches the top only from zero (R128, R134). -/
theorem val_dec (hB : 0 < N * W) (x : Wide W N) :
    val (dec x) = if val x = 0 then 2 ^ (N * W) - 1 else val x - 1 := by
  rw [dec, val_sub_eq_ite, val_wOne hB]
  by_cases h : val x = 0
  · rw [if_neg (by omega), if_pos h, h, Nat.zero_add]
  · rw [if_pos (Nat.one_le_iff_ne_zero.mpr h), if_neg h]

/-! ## The six commands -/

/-- Settles O15: the opcode's format is R, and ADD commits `add` of the two source registers. -/
theorem addWritesTheSumModuloTwoToTheB : Obligations.AddWritesTheSumModuloTwoToTheB :=
  ⟨encodedInR_of_format rfl, fun s _ ra rb => ⟨add (s.reg ra) (s.reg rb), rfl, val_add _ _⟩⟩

/-- Settles O16: the opcode's format is R, and SUB commits `sub` of the two source registers. -/
theorem subWritesTheDifferenceModuloTwoToTheB : Obligations.SubWritesTheDifferenceModuloTwoToTheB :=
  ⟨encodedInR_of_format rfl, fun s _ ra rb => ⟨sub (s.reg ra) (s.reg rb), rfl, val_sub_eq_ite _ _⟩⟩

/-- Settles O17: the opcode's format is U, and NEG commits `neg` of the source register. -/
theorem negWritesTheTwosComplement : Obligations.NegWritesTheTwosComplement :=
  ⟨encodedInU_of_format rfl, fun s _ ra => ⟨neg (s.reg ra), rfl, val_neg s.cfg.B_pos _⟩⟩

/-- Settles O18: the opcode's format is U, and NOT commits `notw` of the source register, limb by limb and as a number. -/
theorem notComplementsEveryLimb : Obligations.NotComplementsEveryLimb :=
  ⟨encodedInU_of_format rfl, fun s _ ra =>
    ⟨notw (s.reg ra), rfl, fun _ => limbAt_notw_toNat (s.reg ra), val_notw (s.reg ra)⟩⟩

/-- Settles O19: the opcode's format is U, and INC commits `inc` of the source register. -/
theorem incAddsOneModuloTwoToTheB : Obligations.IncAddsOneModuloTwoToTheB :=
  ⟨encodedInU_of_format rfl, fun s _ ra => ⟨inc (s.reg ra), rfl, val_inc s.cfg.B_pos _⟩⟩

/-- Settles O20: the opcode's format is U, and DEC commits `dec` of the source register. -/
theorem decSubtractsOneModuloTwoToTheB : Obligations.DecSubtractsOneModuloTwoToTheB :=
  ⟨encodedInU_of_format rfl, fun s _ ra => ⟨dec (s.reg ra), rfl, val_dec s.cfg.B_pos _⟩⟩

/-! ## The ripple units -/

/-- Settles O28: `adder_invariant` over all limbs, and one position cannot carry twice. -/
theorem adderRippleIsTheModularSum : Obligations.AdderRippleIsTheModularSum := fun cfg x y =>
  ⟨adder_eq_add cfg.W_pos x y, fun i => carries_exclusive cfg.W_pos _ _ (carryIn x y i)⟩

/-- Settles O29: `subtractor_invariant` over all limbs, and one position cannot borrow twice. -/
theorem subtractorRippleIsTheModularDifference : Obligations.SubtractorRippleIsTheModularDifference := fun cfg x y =>
  ⟨subtractor_eq_sub cfg.W_pos x y, fun i => borrows_exclusive cfg.W_pos _ _ (borrowIn x y i)⟩

/-! ## The laws of R135 -/

theorem add_wide (x : Wide W N) (v : Int) : add x (wide v) = wide (val x + v) :=
  wide_eq_of_modEq ((val_wide_modEq v).add_left _)

theorem wide_sub (u : Int) (y : Wide W N) : sub (wide u) y = wide (u - val y) :=
  wide_eq_of_modEq ((val_wide_modEq u).sub_right _)

/-- The complement is -1 less the number, modulo 2^B (R127). -/
theorem notw_wide (v : Int) : notw (wide v : Wide W N) = wide (-1 - v) := by
  have hnot : (val (notw (wide v : Wide W N)) : Int) = -1 - val (wide v : Wide W N) + 2 ^ (N * W) := by
    have h : (val (notw (wide v : Wide W N)) : Int) + val (wide v : Wide W N) + 1 = 2 ^ (N * W) :=
      mod_cast val_notw_add (wide v : Wide W N)
    omega
  rw [← wide_val (notw (wide v : Wide W N)), hnot]
  exact wide_eq_of_modEq (Int.add_modEq_right.trans ((val_wide_modEq v).sub_left _))

theorem add_wZero (x : Wide W N) : add x wZero = x := by rw [wZero, add_wide, add_zero, wide_val]

theorem sub_eq_add_neg_wide (x y : Wide W N) : sub x y = add x (neg y) := by
  rw [neg_eq_wide, add_wide, ← sub_eq_add_neg, sub]

theorem sub_self_wide (x : Wide W N) : sub x x = wZero := by rw [sub, sub_self, wZero]

theorem neg_eq_wZero_sub (x : Wide W N) : neg x = sub wZero x := by rw [neg_eq_wide, wZero, wide_sub, zero_sub]

theorem sub_wZero (x : Wide W N) : sub x wZero = x := by
  rw [sub, val_wZero, Nat.cast_zero, sub_zero, wide_val]

theorem add_comm_wide (x y : Wide W N) : add x y = add y x := by rw [add, add, add_comm]

theorem sub_add_cancel_wide (x y : Wide W N) : sub (add x y) y = x := by
  rw [add, wide_sub, add_sub_cancel_right, wide_val]

theorem notw_notw (x : Wide W N) : notw (notw x) = x := by
  rw [← wide_val x, notw_wide, notw_wide, sub_sub_cancel]

/-- MAX of the unsigned reading is the complement of its MIN, 0 (R135). -/
theorem notw_wZero : notw (wZero : Wide W N) = wide (2 ^ (N * W) - 1) := by
  rw [wZero, notw_wide]
  apply wide_eq_of_modEq
  rw [sub_zero, sub_eq_neg_add]
  exact Int.add_modEq_right.symm

/-- MIN of the signed reading is the complement of its MAX (R135). -/
theorem notw_signedMax (hB : 0 < N * W) :
    notw (wide (2 ^ (N * W - 1) - 1) : Wide W N) = wide (2 ^ (N * W - 1)) := by
  have hpow : (2 : Int) ^ (N * W) = 2 * 2 ^ (N * W - 1) := (mul_pow_sub_one hB.ne' 2).symm
  rw [notw_wide]
  apply wide_eq_of_modEq
  calc (-1 : Int) - (2 ^ (N * W - 1) - 1)
      ≡ -1 - (2 ^ (N * W - 1) - 1) + 2 ^ (N * W) [ZMOD 2 ^ (N * W)] := Int.add_modEq_right.symm
    _ = 2 ^ (N * W - 1) := by omega

/-- Settles O39: the laws on numbers are those of the integers, and each MAX gives its MIN because NOT undoes itself. -/
theorem addSubtractLaws : Obligations.AddSubtractLaws := fun cfg x y =>
  ⟨add_wZero x, sub_wZero x, notw_notw x, (sub_eq_add_neg_wide x x).symm.trans (sub_self_wide x),
    sub_eq_add_neg_wide x y, add_comm_wide x y, sub_add_cancel_wide x y, sub_add_cancel_wide x wOne,
    neg_eq_wZero_sub x, notw_wZero ▸ notw_notw wZero, notw_wZero, notw_signedMax cfg.B_pos,
    notw_signedMax cfg.B_pos ▸ notw_notw (wide (2 ^ (cfg.B - 1) - 1))⟩

end Sys2Proof.Proofs

/-! PROOFS. The multiply command (R148), its half-limb unit (R142, R143, R147), and the laws of R150: a product is `wide` of
the integer product, so a law is one on the integers modulo 2^B. -/

namespace Sys2Proof.Proofs

open Sys2Proof.Machine Sys2Proof.Laws

variable {W N : Nat}

/-! ## The command -/

/-- Settles O21: the opcode's format is R, and MUL commits `mul` of the two source registers. -/
theorem mulWritesTheLowHalfOfTheProduct : Obligations.MulWritesTheLowHalfOfTheProduct :=
  ⟨encodedInR_of_format rfl, fun s _ ra rb => ⟨mul (s.reg ra) (s.reg rb), rfl, val_mul _ _⟩⟩

/-! ## The half-limb unit -/

/-- Settles O31: each placement adds its product at its weight modulo 2^B, and a sum does not depend on its order. -/
theorem multiplierInAnyOrderIsTheModularProduct : Obligations.MultiplierInAnyOrderIsTheModularProduct :=
  fun cfg a b _ hperm => accumulate_eq_mul cfg.W_pos cfg.W_even a b hperm

/-- Settles O32: W is even, so two half-limbs make a limb, and two numbers below 2^(W/2) have a product below 2^W. -/
theorem halfLimbProductsFitOneLimb : Obligations.HalfLimbProductsFitOneLimb := fun cfg a b i j =>
  ⟨halfLimb_toNat cfg.W_pos cfg.W_even a i, crossProduct_toNat cfg.W_pos cfg.W_even a b i j⟩

/-! ## The laws of R150 -/

theorem mul_wide (x : Wide W N) (v : Int) : mul x (wide v) = wide (val x * v) :=
  wide_eq_of_modEq ((val_wide_modEq v).mul_left _)

theorem mul_wOne (x : Wide W N) : mul x wOne = x := by rw [wOne, mul_wide, mul_one, wide_val]

theorem mul_wZero (x : Wide W N) : mul x wZero = wZero := by rw [wZero, mul_wide, mul_zero]

/-- Below B a left shift is the product with the power of two (R102, R150). -/
theorem shl_eq_mul (x : Wide W N) {s : Nat} (hs : s < N * W) : shl x s = mul x (wide (2 ^ s : Nat)) := by
  rw [shl, if_pos hs, mul_wide, Nat.cast_mul]

theorem mul_comm_wide (x y : Wide W N) : mul x y = mul y x := by rw [mul, mul, mul_comm]

theorem mul_add_wide (x y z : Wide W N) : mul x (add y z) = add (mul x y) (mul x z) :=
  calc mul x (add y z)
      = wide (val x * (val y + val z)) := by rw [add, mul_wide]
    _ = wide (val x * val y + val x * val z) := by rw [mul_add]
    _ = add (mul x y) (mul x z) :=
        (wide_eq_of_modEq ((val_wide_modEq _).add (val_wide_modEq _))).symm

theorem mul_neg_wOne (hB : 0 < N * W) (x : Wide W N) : mul x (neg wOne) = neg x := by
  rw [neg_eq_wide, neg_eq_wide, mul_wide, val_wOne hB, Nat.cast_one, mul_neg_one]

/-- The division identity in the block's own `add` and `mul` (R150, R156): q × y + r is x, which lies below 2^B. -/
theorem add_mul_of_divmod {x y q r : Wide W N} (h : divmod x y = some (q, r)) : add (mul q y) r = x := by
  have hy : val y ≠ 0 := by
    rw [Ne, ← divmod_eq_none_iff x, h]
    exact Option.some_ne_none _
  obtain ⟨q', r', h', hq, hr⟩ := divmod_of_ne (x := x) hy
  obtain ⟨rfl, rfl⟩ := Prod.mk.inj (Option.some.inj (h.symm.trans h'))
  apply val_inj
  rw [val_add, val_mul, Nat.mod_add_mod, hq, hr, Nat.div_add_mod', Nat.mod_eq_of_lt (val_lt x)]

/-- Settles O40: the laws on numbers are those of the integers, and a shift and a division are read as products. -/
theorem multiplyLaws : Obligations.MultiplyLaws := fun cfg x y z =>
  ⟨mul_wOne x, mul_wZero x, fun _ => shl_eq_mul x, mul_comm_wide x y, mul_add_wide x y z, mul_neg_wOne cfg.B_pos x,
    fun _ _ => add_mul_of_divmod⟩

end Sys2Proof.Proofs

/-! PROOFS. The divide commands (R163 to R165), a division by zero issued as a word (R192, R195), the loop of the restoring
divider (R161, R168), and the laws of R166 with the uniqueness of R156. -/

namespace Sys2Proof.Proofs

open Sys2Proof.Machine Sys2Proof.Laws

variable {W N : Nat}

/-! ## The commands -/

/-- For a nonzero divisor the divide commands hand on the pair of R156. -/
theorem division_of_ne {s : State} {rb : RegNum} (h : s.regVal rb ≠ 0) (c : Word32) (ra : RegNum)
    (write : Wide s.cfg.W s.cfg.N → Wide s.cfg.W s.cfg.N → State) :
    ∃ q r, s.division c ra rb write = write q r ∧
      val q = s.regVal ra / s.regVal rb ∧ val r = s.regVal ra % s.regVal rb := by
  rcases division_cases s c ra rb write with ⟨h0, -⟩ | ⟨-, hpair⟩
  · exact absurd h0 h
  · exact hpair

/-- Settles O22: the opcode's format is R; a zero divisor takes the DIVZERO entry, and otherwise DIV commits the quotient. -/
theorem divWritesTheQuotient : Obligations.DivWritesTheQuotient := by
  refine ⟨encodedInR_of_format rfl, fun s rd ra rb => ⟨fun h0 => exec_of_zero_divisor rfl rfl h0, fun h => ?_⟩⟩
  obtain ⟨q, r, hexec, hq, -⟩ := division_of_ne h (encode (.div rd ra rb)) ra fun q _ => s.commit rd q
  exact ⟨q, congrArg Host.Outcome.next hexec, hq⟩

/-- Settles O23: the opcode's format is R; a zero divisor takes the DIVZERO entry, and otherwise MOD commits the
remainder. -/
theorem modWritesTheRemainder : Obligations.ModWritesTheRemainder := by
  refine ⟨encodedInR_of_format rfl, fun s rd ra rb => ⟨fun h0 => exec_of_zero_divisor rfl rfl h0, fun h => ?_⟩⟩
  obtain ⟨q, r, hexec, -, hr⟩ := division_of_ne h (encode (.mod rd ra rb)) ra fun _ r => s.commit rd r
  exact ⟨r, congrArg Host.Outcome.next hexec, hr⟩

/-- DIVMOD with one register for both results takes the ILLEGAL_CMD entry, whatever the divisor (R165, R198). -/
theorem exec_divmod_same (s : State) (rd ra rb : RegNum) :
    exec (.divmod rd rd ra rb) s = .next (s.raise .illegalCmd (encode (.divmod rd rd ra rb)) none) := by
  rw [exec, execDivmod, if_pos rfl]

/-- With two destinations DIVMOD is the division whose pair is written to them. -/
theorem exec_divmod_of_ne {rd rr : RegNum} (hne : rd ≠ rr) (s : State) (ra rb : RegNum) :
    exec (.divmod rd rr ra rb) s =
      .next (s.division (encode (.divmod rd rr ra rb)) ra rb fun q r => (s.setReg rd q).commit rr r) := by
  rw [exec, execDivmod, if_neg hne]

/-- Settles O24: the opcode's format is Q; one destination for both results is illegal, a zero divisor takes the DIVZERO
entry, and otherwise the pair is written to the two destinations. -/
theorem divmodWritesQuotientAndRemainder : Obligations.DivmodWritesQuotientAndRemainder := by
  refine ⟨encodedInQ_of_format rfl, fun s rd rr ra rb => ⟨?_, fun hne h0 => ?_, fun hne h => ?_⟩⟩
  · rintro rfl
    exact exec_divmod_same s rd ra rb
  · exact exec_of_zero_divisor (decide_eq_true hne) rfl h0
  · obtain ⟨q, r, hexec, hq, hr⟩ :=
      division_of_ne h (encode (.divmod rd rr ra rb)) ra fun q r => (s.setReg rd q).commit rr r
    exact ⟨q, r, (exec_divmod_of_ne hne s ra rb).trans (congrArg Host.Outcome.next hexec), hq, hr⟩

/-- The step on a write of a legal word to CMD is the execution of its command (R178). -/
theorem step_of_decode_ok {s : State} {c : Word32} {rest : List (Transaction s.cfg.W)} {i : Instr}
    (hs : s.script = .ctlWrite 2 c :: rest) (hd : decode c = .ok i) : step s = exec i { s with script := rest } := by
  rw [step_cons s _ rest hs, perform, ctlWrite_cmd, issue, hd]

/-- Settles O60: the word runs its command, whose DIVZERO entry records its encoding, which is the word. -/
theorem issuedDivisionByZeroRecordsTheWordAsWritten : Obligations.IssuedDivisionByZeroRecordsTheWordAsWritten := by
  intro s c rest i rb hs hd hrb h0
  obtain ⟨henc, hw⟩ := legalWordIsTheEncodingOfItsCommand c i hd
  have hexec := exec_of_zero_divisor (s := { s with script := rest }) hw hrb h0
  rw [henc] at hexec
  exact (step_of_decode_ok hs hd).trans hexec

/-! ## The restoring divider -/

/-- After k iterations the loop's invariant holds with k iterations fewer to go (R161). -/
theorem iterate_divIter_invariant (hW : 0 < W) (hB : 1 < N * W) {a b m k : Nat} {d : DivWork W N}
    (h : DivInvariant a b (m + k) d) : DivInvariant a b m ((divIter hW)^[k] d) := by
  induction k generalizing d with
  | zero => exact h
  | succ k ih => exact ih (divIter_invariant hW hB h)

/-- With quotient bit j to come the probe is that bit (R161 (a)). -/
theorem DivInvariant.val_probe {a b j : Nat} {d : DivWork W N} (h : DivInvariant a b (j + 1) d) :
    val d.probe = 2 ^ j := by
  rw [h.probe, Nat.pow_succ, Nat.mul_div_cancel _ (by decide)]

/-- With quotient bit j to come the divisor copy is the divisor at that place (R161 (b)). -/
theorem DivInvariant.val_dv {a b j : Nat} {d : DivWork W N} (h : DivInvariant a b (j + 1) d) :
    val d.dv = b * 2 ^ j := by
  rw [h.dv, Nat.pow_succ, ← Nat.mul_assoc, Nat.mul_div_cancel _ (by decide)]

/-- The quotient so far is a multiple of 2^(j + 1), so bit j, which the probe would set, is not yet in it (R161 (f)). -/
theorem DivInvariant.wAnd_q_probe {a b j : Nat} {d : DivWork W N} (hW : 0 < W) (h : DivInvariant a b (j + 1) d) :
    wAnd d.q d.probe = wZero := by
  have hbit : (val d.q).testBit j = false := by
    obtain ⟨c, hc⟩ := h.q_dvd
    rw [hc, Nat.testBit_two_pow_mul, decide_eq_false (Nat.not_succ_le_self j), Bool.false_and]
  rw [← val_eq_zero_iff, val_wAnd hW, h.val_probe, Nat.and_two_pow, hbit, Bool.toNat_false, Nat.zero_mul]

/-- With no iteration to go the probe bit is gone, which ends the loop (R161 (a)). -/
theorem DivInvariant.probe_eq_wZero {a b : Nat} {d : DivWork W N} (h : DivInvariant a b 0 d) : d.probe = wZero :=
  (val_eq_zero_iff _).mp h.probe

/-- With no iteration to go the working dividend is below the divisor (R161 (d)). -/
theorem DivInvariant.work_lt_divisor {a b : Nat} {d : DivWork W N} (h : DivInvariant a b 0 d) : val d.work < b :=
  h.work_lt.trans_eq (Nat.mul_one b)

/-- Settles O36: the invariant holds at the start with shift + 1 iterations to go, and each iteration takes one off. -/
theorem dividerLoopInvariantAndIterationCount : Obligations.DividerLoopInvariantAndIterationCount := by
  intro cfg a b hb hle
  have hB := config_B_gt_one cfg
  have hstart := divStart_invariant cfg.W_pos hb hle
  rw [← msbUnit_eq_msb, ← msbUnit_eq_msb] at hstart
  have ha : msbUnit a < cfg.B := msbUnit_eq_msb a ▸ msb_lt cfg.B_pos a
  refine ⟨?_, by omega, fun k hk => ?_, ?_⟩
  · rw [msbUnit_eq_msb, msbUnit_eq_msb]
    exact msb_le_msb hb hle
  · have hleft : msbUnit a - msbUnit b + 1 = msbUnit a - msbUnit b - k + 1 + k := by omega
    have h := iterate_divIter_invariant cfg.W_pos hB (hleft ▸ hstart)
    exact ⟨h.val_probe, h.val_dv, h.dividend, h.work_lt, h.wAnd_q_probe cfg.W_pos⟩
  · rw [← Nat.zero_add (msbUnit a - msbUnit b + 1)] at hstart
    have h := iterate_divIter_invariant cfg.W_pos hB hstart
    exact ⟨h.probe_eq_wZero, h.dividend, h.work_lt_divisor⟩

/-- Settles O37: every build has B > 1, and there each of the divider's steps gives the pair of R156. -/
theorem dividerUnitIsQuotientAndRemainder : Obligations.DividerUnitIsQuotientAndRemainder := fun cfg =>
  divider_eq_divmod cfg.W_pos (config_B_gt_one cfg)

/-! ## The laws of R166 -/

theorem divmod_wOne (hB : 0 < N * W) (x : Wide W N) : divmod x wOne = some (x, wZero) := by
  have hone : val (wOne : Wide W N) = 1 := val_wOne hB
  refine divmod_eq_some ?_ ?_ ?_
  · rw [hone]
    exact Nat.one_ne_zero
  · rw [hone, Nat.div_one]
  · rw [hone, Nat.mod_one, val_wZero]

theorem divmod_wZero (x : Wide W N) : divmod x wZero = none := (divmod_eq_none_iff x wZero).mpr val_wZero

theorem divmod_of_lt {x y : Wide W N} (h : val x < val y) : divmod x y = some (wZero, x) := by
  refine divmod_eq_some (Nat.ne_zero_of_lt h) ?_ ?_
  · rw [val_wZero, Nat.div_eq_of_lt h]
  · rw [Nat.mod_eq_of_lt h]

/-- The pair is the only one with x = q × y + r and r < y (R156). -/
theorem divmod_eq_some_iff {x y : Wide W N} (hy : val y ≠ 0) (q r : Wide W N) :
    divmod x y = some (q, r) ↔ val x = val q * val y + val r ∧ val r < val y := by
  rw [Nat.add_comm, Nat.mul_comm, eq_comm (a := val x), ← Nat.div_mod_unique (Nat.pos_of_ne_zero hy)]
  constructor
  · intro h
    obtain ⟨q', r', h', hq, hr⟩ := divmod_of_ne (x := x) hy
    obtain ⟨rfl, rfl⟩ := Prod.mk.inj (Option.some.inj (h.symm.trans h'))
    exact ⟨hq.symm, hr.symm⟩
  · rintro ⟨hq, hr⟩
    exact divmod_eq_some hy hq.symm hr.symm

/-- Settles O41: each law is read off the quotient and remainder of the numbers. -/
theorem divisionLaws : Obligations.DivisionLaws := fun cfg x _ =>
  ⟨divmod_wOne cfg.B_pos x, divmod_wZero x, divmod_of_lt, divmod_eq_some_iff, fun _ _ => add_mul_of_divmod⟩

end Sys2Proof.Proofs

/-! PROOFS. The control port (R176 to R181): the layout of STATUS, what a read and a write of each control register do, and the
BAD_ACCESS entry of the forbidden accesses. -/

namespace Sys2Proof.Proofs

open Sys2Proof.Machine Sys2Proof.Laws

/-! ## The layout of STATUS (R26) -/

theorem statusWord_toNat (err : Bool) (cause : BitVec 4) :
    (statusWord err cause).toNat = 2 ^ 4 * cause.toNat + err.toNat := by
  have herr : err.toNat < 2 := Bool.toNat_lt err
  rw [statusWord, BitVec.toNat_ofNat]
  omega

/-- ERR stands below bit 4, with nothing above bit 0; CAUSE stands from bit 4 on. -/
theorem statusWord_getLsbD (err : Bool) (cause : BitVec 4) (k : Nat) :
    (statusWord err cause).getLsbD k = if k < 4 then decide (k = 0) && err else cause.getLsbD (k - 4) := by
  have herr : err.toNat < 2 ^ 4 := (Bool.toNat_lt err).trans (by decide)
  rw [← BitVec.testBit_toNat, statusWord_toNat, Nat.testBit_two_pow_mul_add _ herr, Nat.testBit_bool_toNat,
    BitVec.testBit_toNat]

theorem statusWord_bit_zero (err : Bool) (cause : BitVec 4) : (statusWord err cause).getLsbD 0 = err := by
  rw [statusWord_getLsbD, if_pos (by decide), decide_eq_true rfl, Bool.true_and]

theorem statusWord_cause_bit (err : Bool) (cause : BitVec 4) (k : Nat) :
    (statusWord err cause).getLsbD (4 + k) = cause.getLsbD k := by
  rw [statusWord_getLsbD, if_neg (by omega), Nat.add_sub_cancel_left]

theorem statusWord_reserved_bit (err : Bool) (cause : BitVec 4) {k : Nat} (hk : (1 ≤ k ∧ k ≤ 3) ∨ 8 ≤ k) :
    (statusWord err cause).getLsbD k = false := by
  rw [statusWord_getLsbD]
  rcases hk with ⟨hlow, hhigh⟩ | h8
  · rw [if_pos (by omega), decide_eq_false (by omega), Bool.false_and]
  · rw [if_neg (by omega), BitVec.getLsbD_of_ge _ _ (by omega)]

/-! ## Reads and writes of the control registers -/

theorem step_ctlRead {s : State} {n : BitVec 2} {rest : List (Transaction s.cfg.W)} (hs : s.script = .ctlRead n :: rest) :
    step s = .next (({ s with script := rest } : State).ctlRead n) :=
  step_cons s (.ctlRead n) rest hs

theorem step_ctlWrite {s : State} {n : BitVec 2} {v : Word32} {rest : List (Transaction s.cfg.W)}
    (hs : s.script = .ctlWrite n v :: rest) : step s = ctlWrite { s with script := rest } n v :=
  step_cons s (.ctlWrite n v) rest hs

theorem ctlRead_status (s : State) : s.ctlRead 0 = s.okay (some (.control s.status)) := by
  rw [State.ctlRead, if_pos rfl]

theorem ctlRead_einfo (s : State) : s.ctlRead 1 = s.okay (some (.control s.einfo)) := by
  rw [State.ctlRead, if_neg (by decide), if_pos rfl]

theorem ctlWrite_status (s : State) (v : Word32) : ctlWrite s 0 v = .next (s.writeStatus v) := by
  rw [ctlWrite, if_pos rfl]

/-- Settles O46: the two readable registers, and STATUS field by field. -/
theorem controlReadsReturnStatusAndEinfo : Obligations.ControlReadsReturnStatusAndEinfo := by
  intro s rest
  refine ⟨fun hs => ?_, fun hs => ?_, statusWord_bit_zero s.err s.cause, fun k _ => statusWord_cause_bit s.err s.cause k,
    fun _ => statusWord_reserved_bit s.err s.cause⟩
  · rw [step_ctlRead hs, ctlRead_status]
    rfl
  · rw [step_ctlRead hs, ctlRead_einfo]
    rfl

/-- Settles O6: the word written to CMD is decoded and its command executed. -/
theorem stepRunsTheDecodedCommand : Obligations.StepRunsTheDecodedCommand := fun _ _ _ _ => step_of_decode_ok

/-- Settles O47: the two forms of a write of STATUS. -/
theorem statusWriteClearsTheErrorRecord : Obligations.StatusWriteClearsTheErrorRecord := by
  intro s v rest hs
  rw [step_ctlWrite hs, ctlWrite_status]
  rcases writeStatus_cases { s with script := rest } v with ⟨hv, h⟩ | ⟨hv, h⟩
  · rw [h]
    exact ⟨fun _ => rfl, fun h0 => absurd (hv.symm.trans h0) (by decide)⟩
  · rw [h]
    exact ⟨fun h1 => absurd (hv.symm.trans h1) (by decide), fun _ => rfl⟩

/-! ## Forbidden accesses -/

/-- The BAD_ACCESS entry of the control port, its access word written out: port bit 31, write bit 30, address n (R195). -/
theorem badControl_eq (s : State) (n : BitVec 2) (write : Bool) :
    s.badControl n write =
      { s with
        err := true
        cause := 3
        einfo := BitVec.ofNat 32 (2 ^ 31 + write.toNat * 2 ^ 30 + n.toNat)
        reply := some ⟨.error, if write then none else some (.control 0)⟩ } := by
  have haddr : (n.zeroExtend 12).toNat = n.toNat := BitVec.toNat_setWidth_of_le (by decide)
  rw [State.badControl, State.raise, accessWord, haddr, portBit, Nat.one_mul]
  cases write <;> rfl

/-- A read of CMD (R180) or of control register 3 (R181). -/
theorem ctlRead_forbidden (s : State) {n : BitVec 2} (hn : n = 2 ∨ n = 3) : s.ctlRead n = s.badControl n false := by
  rcases ctlRead_cases s n with ⟨rfl, -⟩ | ⟨rfl, -⟩ | ⟨-, h⟩
  · exact absurd hn (by decide)
  · exact absurd hn (by decide)
  · exact h

/-- A write of EINFO (R179) or of control register 3 (R181). -/
theorem ctlWrite_forbidden (s : State) {n : BitVec 2} (v : Word32) (hn : n = 1 ∨ n = 3) :
    ctlWrite s n v = .next (s.badControl n true) := by
  rcases ctlWrite_cases s n v with ⟨rfl, -⟩ | ⟨rfl, -⟩ | ⟨-, h⟩
  · exact absurd hn (by decide)
  · exact absurd hn (by decide)
  · exact h

/-- Settles O48: the four accesses end in the BAD_ACCESS entry of the control port, whose word is read off n and the direction. -/
theorem forbiddenControlAccessesRaiseBadAccess : Obligations.ForbiddenControlAccessesRaiseBadAccess := by
  intro s v rest
  refine ⟨fun hs => ?_, fun hs => ?_, fun hs => ?_, fun hs => ?_⟩
  · rw [step_ctlWrite hs, ctlWrite_forbidden _ v (.inl rfl), badControl_eq]
    rfl
  · rw [step_ctlRead hs, ctlRead_forbidden _ (.inl rfl), badControl_eq]
    rfl
  · rw [step_ctlRead hs, ctlRead_forbidden _ (.inr rfl), badControl_eq]
    rfl
  · rw [step_ctlWrite hs, ctlWrite_forbidden _ v (.inr rfl), badControl_eq]
    rfl

end Sys2Proof.Proofs

/-! PROOFS. The error cases of files 60 and 70: the access word (R195), an illegal word with a zero divisor (R198), the error
record's influence on what follows (R196, R199, R200), the idle block and the reset transaction (R210, R211). -/

namespace Sys2Proof.Proofs

open Sys2Proof.Machine Sys2Proof.Laws

/-! ## The access word (R46, R195) -/

theorem limbAddr_toNat (r : RegNum) (i : BitVec 8) : (limbAddr r i).toNat = r.val * 256 + i.toNat := by
  rw [limbAddr, BitVec.toNat_ofNat, Nat.mod_eq_of_lt (by omega)]

theorem portBit_lt (p : Port) : portBit p < 2 := by cases p <;> decide

/-- The access word loses no bit of its three parts. -/
theorem accessWord_toNat (p : Port) (write : Bool) (addr : BitVec 12) :
    (accessWord p write addr).toNat = portBit p * 2 ^ 31 + write.toNat * 2 ^ 30 + addr.toNat := by
  have hport := portBit_lt p
  have hwrite := Bool.toNat_lt write
  rw [accessWord, BitVec.toNat_ofNat, Nat.mod_eq_of_lt (by omega)]

/-- Settles O49: the four fields are the digits of the word's number, whose address part is below 2^12. -/
theorem accessWordHoldsPortDirectionAndAddress : Obligations.AccessWordHoldsPortDirectionAndAddress := by
  intro p write r i
  have hport := portBit_lt p
  have hwrite := Bool.toNat_lt write
  simp only [field, accessWord_toNat, limbAddr_toNat]
  omega

/-! ## Illegal words with a zero divisor (R198) -/

/-- Settles O27: the word is refused by its format before any register is read, and R65 gives the refusal's whole effect. -/
theorem illegalWordWinsOverZeroDivisor : Obligations.IllegalWordWinsOverZeroDivisor := by
  intro s c rest hs h
  obtain ⟨-, hstep, -⟩ := wordIsIllegalExactlyByTheThreeClauses
  obtain ⟨e, hillegal⟩ : ∃ e, decode c = .error e := by
    rcases h with ⟨hop, hbad⟩ | ⟨hop | hop, hz⟩
    · exact (encodedInQ_of_format rfl c hop).2 hbad.symm
    · exact ⟨_, (encodedInR_of_format rfl c hop).2 hz⟩
    · exact ⟨_, (encodedInR_of_format rfl c hop).2 hz⟩
  exact hstep s c rest e hs hillegal

/-! ## The error record influences nothing else (R196, R199, R200) -/

/-- The fields ERR, CAUSE and EINFO (R26, R27). -/
structure ErrorRecord where
  err : Bool
  cause : BitVec 4
  einfo : Word32

/-- The state with another error record. -/
def withRecord (s : State) (rec : ErrorRecord) : State :=
  { s with err := rec.err, cause := rec.cause, einfo := rec.einfo }

/-- The record that the error entry leaves (R196). -/
def entryRecord (c : Cause) (info : Word32) : ErrorRecord := ⟨true, causeCode c, info⟩

/-- The error entry overwrites the whole record, so the record before it is lost. -/
theorem raise_withRecord (s : State) (rec : ErrorRecord) (c : Cause) (info : Word32) (p : Option Port) :
    (withRecord s rec).raise c info p = withRecord (s.raise c info p) (entryRecord c info) := rfl

theorem badControl_withRecord (s : State) (rec : ErrorRecord) (n : BitVec 2) (write : Bool) :
    (withRecord s rec).badControl n write = withRecord (s.badControl n write)
      (entryRecord .badAccess (accessWord .control write (n.zeroExtend 12))) := rfl

theorem division_withRecord (s : State) (rec : ErrorRecord) (c : Word32) (ra rb : RegNum)
    (write : Wide s.cfg.W s.cfg.N → Wide s.cfg.W s.cfg.N → State) :
    ∃ rec', (withRecord s rec).division c ra rb (fun q r => withRecord (write q r) rec) =
      withRecord (s.division c ra rb write) rec' := by
  have hdiv : divmod ((withRecord s rec).reg ra) ((withRecord s rec).reg rb) = divmod (s.reg ra) (s.reg rb) := rfl
  rw [State.division, State.division, hdiv]
  cases divmod (s.reg ra) (s.reg rb) with
  | none => exact ⟨_, raise_withRecord ..⟩
  | some qr => exact ⟨rec, rfl⟩

theorem exec_withRecord (i : Instr) (s : State) (rec : ErrorRecord) :
    ∃ t rec', exec i s = .next t ∧ exec i (withRecord s rec) = .next (withRecord t rec') := by
  cases i with
  | div rd ra rb =>
    obtain ⟨rec', h⟩ := division_withRecord s rec (encode (.div rd ra rb)) ra rb fun q _ => s.commit rd q
    exact ⟨_, rec', rfl, congrArg Host.Outcome.next h⟩
  | mod rd ra rb =>
    obtain ⟨rec', h⟩ := division_withRecord s rec (encode (.mod rd ra rb)) ra rb fun _ r => s.commit rd r
    exact ⟨_, rec', rfl, congrArg Host.Outcome.next h⟩
  | divmod rd rr ra rb =>
    rcases eq_or_ne rd rr with rfl | hne
    · exact ⟨_, entryRecord .illegalCmd (encode (.divmod rd rd ra rb)), exec_divmod_same s rd ra rb,
        exec_divmod_same (withRecord s rec) rd ra rb⟩
    · obtain ⟨rec', h⟩ := division_withRecord s rec (encode (.divmod rd rr ra rb)) ra rb
        fun q r => (s.setReg rd q).commit rr r
      exact ⟨_, rec', exec_divmod_of_ne hne s ra rb,
        (exec_divmod_of_ne hne (withRecord s rec) ra rb).trans (congrArg Host.Outcome.next h)⟩
  | _ => exact ⟨_, rec, rfl, rfl⟩

theorem issue_withRecord (s : State) (rec : ErrorRecord) (c : Word32) :
    ∃ t rec', issue s c = .next t ∧ issue (withRecord s rec) c = .next (withRecord t rec') := by
  cases hd : decode c with
  | ok i =>
    have hissue (u : State) : issue u c = exec i u := by rw [issue, hd]
    simp only [hissue]
    exact exec_withRecord i s rec
  | error e => exact ⟨_, entryRecord .illegalCmd c, issue_of_error s hd, issue_of_error (withRecord s rec) hd⟩

theorem writeStatus_withRecord (s : State) (rec : ErrorRecord) (v : Word32) :
    ∃ rec', (withRecord s rec).writeStatus v = withRecord (s.writeStatus v) rec' := by
  rcases writeStatus_cases s v with ⟨hv, h⟩ | ⟨hv, h⟩
  · rw [h]
    exact ⟨⟨false, 0, 0⟩, if_pos hv⟩
  · rw [h]
    exact ⟨rec, if_neg (Bool.eq_false_iff.mp hv)⟩

theorem ctlWrite_withRecord (s : State) (rec : ErrorRecord) (n : BitVec 2) (v : Word32) :
    ∃ t rec', ctlWrite s n v = .next t ∧ ctlWrite (withRecord s rec) n v = .next (withRecord t rec') := by
  rcases ctlWrite_cases s n v with ⟨rfl, h⟩ | ⟨rfl, h⟩ | ⟨hn, h⟩
  · obtain ⟨rec', hw⟩ := writeStatus_withRecord s rec v
    exact ⟨_, rec', h, by rw [ctlWrite_status, hw]⟩
  · rw [ctlWrite_cmd, ctlWrite_cmd]
    exact issue_withRecord s rec v
  · exact ⟨_, _, h, by rw [ctlWrite_forbidden _ v hn, badControl_withRecord]⟩

theorem limbWrite_withRecord (s : State) (rec : ErrorRecord) (r : RegNum) (i : BitVec 8) (v : Limb s.cfg.W) :
    ∃ rec', (withRecord s rec).limbWrite r i v = withRecord (s.limbWrite r i v) rec' := by
  rcases limbWrite_cases s r i v with ⟨hin, h⟩ | ⟨hhole, h⟩
  · rw [h]
    exact ⟨rec, if_pos hin⟩
  · rw [h]
    exact ⟨entryRecord .badAccess (accessWord .limb true (limbAddr r i)), if_neg (Nat.not_lt.mpr hhole)⟩

theorem limbRead_withRecord (s : State) (rec : ErrorRecord) (r : RegNum) (i : BitVec 8) :
    ∃ rec', (withRecord s rec).limbRead r i = withRecord (s.limbRead r i) rec' := by
  rcases limbRead_cases s r i with ⟨hin, h⟩ | ⟨hhole, h⟩
  · rw [h]
    exact ⟨rec, if_pos hin⟩
  · rw [h]
    exact ⟨entryRecord .badAccess (accessWord .limb false (limbAddr r i)), if_neg (Nat.not_lt.mpr hhole)⟩

/-- `t'` is `t` but for the error record and the data of the reply, and the data is the same too where `sameData` holds. -/
def SameButRecord (sameData : Prop) (t t' : State) : Prop :=
  ∃ (rec : ErrorRecord) (reply : Option (Reply t.cfg.W)), t' = { withRecord t rec with reply := reply } ∧
    reply.map Reply.resp = t.reply.map Reply.resp ∧ (sameData → reply = t.reply)

theorem SameButRecord.of_withRecord (sameData : Prop) (t : State) (rec : ErrorRecord) :
    SameButRecord sameData t (withRecord t rec) := ⟨rec, t.reply, rfl, rfl, fun _ => rfl⟩

/-- A control read of STATUS or EINFO is where the record shows, and it shows in the data alone (R176). -/
theorem ctlRead_withRecord (s : State) (rec : ErrorRecord) (n : BitVec 2) :
    SameButRecord False (s.ctlRead n) ((withRecord s rec).ctlRead n) := by
  rcases ctlRead_cases s n with ⟨rfl, h⟩ | ⟨rfl, h⟩ | ⟨hn, h⟩
  · rw [h, ctlRead_status]
    exact ⟨rec, _, rfl, rfl, False.elim⟩
  · rw [h, ctlRead_einfo]
    exact ⟨rec, _, rfl, rfl, False.elim⟩
  · rw [h, ctlRead_forbidden _ hn, badControl_withRecord]
    exact .of_withRecord ..

theorem perform_withRecord (s : State) (rec : ErrorRecord) (tr : Transaction s.cfg.W) :
    ∃ t t', perform s tr = .next t ∧ perform (withRecord s rec) tr = .next t' ∧
      SameButRecord (∀ n, tr ≠ .ctlRead n) t t' := by
  cases tr with
  | limbWrite r i v =>
    obtain ⟨rec', h⟩ := limbWrite_withRecord s rec r i v
    exact ⟨_, _, rfl, congrArg Host.Outcome.next h, .of_withRecord ..⟩
  | limbRead r i =>
    obtain ⟨rec', h⟩ := limbRead_withRecord s rec r i
    exact ⟨_, _, rfl, congrArg Host.Outcome.next h, .of_withRecord ..⟩
  | ctlWrite n v =>
    obtain ⟨t, rec', h, h'⟩ := ctlWrite_withRecord s rec n v
    exact ⟨t, _, h, h', .of_withRecord ..⟩
  | ctlRead n =>
    obtain ⟨rec', reply, heq, hresp, -⟩ := ctlRead_withRecord s rec n
    exact ⟨_, _, rfl, rfl, rec', reply, heq, hresp, fun hne => absurd rfl (hne n)⟩
  | reset => exact ⟨_, _, rfl, rfl, .of_withRecord _ s.doReset ⟨false, 0, 0⟩⟩

/-- The same of a step; an idle one passes the record on. -/
theorem step_withRecord (s : State) (rec : ErrorRecord) :
    ∃ t t', step s = .next t ∧ step (withRecord s rec) = .next t' ∧
      SameButRecord (∀ n, s.script.head? ≠ some (.ctlRead n)) t t' := by
  cases hs : s.script with
  | nil => exact ⟨s, _, step_nil s hs, step_nil (withRecord s rec) hs, .of_withRecord ..⟩
  | cons tr rest =>
    simp only [List.head?_cons, ne_eq, Option.some.injEq]
    rw [step_cons s tr rest hs, step_cons (withRecord s rec) tr rest hs]
    exact perform_withRecord { s with script := rest } rec tr

/-- Settles O57: the record decides the data of a control read and nothing else of a step. -/
theorem errorRecordInfluencesNothingElse : Obligations.ErrorRecordInfluencesNothingElse := by
  intro s t err cause einfo h
  obtain ⟨u, t', hu, ht', rec', reply', rfl, hreply⟩ := step_withRecord s ⟨err, cause, einfo⟩
  cases h.symm.trans hu
  exact ⟨rec'.err, rec'.cause, rec'.einfo, reply', ht', hreply⟩

/-! ## The idle block and the reset transaction (R210, R211) -/

/-- Settles O7, by induction on the number of steps: each of them is an idle one. -/
theorem idleBlockStaysUnchanged : Obligations.IdleBlockStaysUnchanged := by
  intro k s hs
  induction k with
  | zero => rfl
  | succ k ih => exact (run_succ k (step_nil s hs)).trans ih

/-- Settles O51: the step performs the reset, which takes nothing of the state but its build and script. -/
theorem resetTransactionLeadsToTheResetState : Obligations.ResetTransactionLeadsToTheResetState :=
  fun s rest hs => step_cons s .reset rest hs

end Sys2Proof.Proofs
